-- ==== Sys2Proof/Word.lean ====
section
/-! DEFINITION. Word.lean: the widths of the datapath (rules R2, R8) and the two readings of a 16-bit value. -/

namespace Sys2Proof

/-- A register entry, an ALU result, a data address or the PC: 16 bits (R2). -/
abbrev Word := BitVec 16

/-- One byte of the byte-addressed memory (R38). -/
abbrev Byte := BitVec 8

/-- An instruction word: 32 bits, no identity beyond its bits (R2, R57). -/
abbrev IWord := BitVec 32

/-- `uint(v)` of R8: from 0 to 65535. -/
abbrev uint (v : Word) : Nat := v.toNat

/-- `sint(v)` of R8: two's complement, from -32768 to 32767. -/
abbrev sint (v : Word) : Int := v.toInt

end Sys2Proof
end

