-- ==== Sys2Proof/Config.lean ====
section
/-! DEFINITION. Config.lean: the parameters the spec leaves open to the platform (00_scope.md section 3, 92_eei_decisions.md).
A `Config` is plain data that the machine carries and no step changes (R27, assumption 1), so a claim about every state is a
claim about every value of every parameter. The encoding parameter ENC (R69, D1) is a table and stands in Syntax.lean. -/

namespace Sys2Proof

/-- X0_POLICY (R16, D3): what the register file does with index 0. -/
inductive X0Policy where
  | hardwiredZero
  | ordinary
deriving DecidableEq, Repr

/-- A byte order: HALF_ORDER (R43, D7) for 16-bit data, and the order of a 32-bit word in memory (D15). -/
inductive ByteOrder where
  | little
  | big
deriving DecidableEq, Repr

/-- HALF_MISALIGNED (R46, D8): what a 16-bit access at an odd address does. -/
inductive HalfMisaligned where
  | stuck
  | splitWrap
  | fault
deriving DecidableEq, Repr

/-- What a fetch from data memory does at a PC that is no multiple of 4 (R23, R145, D15). -/
inductive UnalignedFetch where
  /-- FETCH yields no word there: the machine is stuck (U13). -/
  | noWord
  /-- FETCH reads the four bytes that start at the PC, addresses modulo 2^16. -/
  | bytesAtPc
deriving DecidableEq, Repr

/-- FETCH (R39, R161, D15): where the word at the PC comes from. -/
inductive FetchSource where
  /-- A separate read-only program image: a partial function from a PC to a word, whatever the PC's alignment. -/
  | programImage
  /-- The data memory of R38: four bytes in the given order. -/
  | dataMemory (order : ByteOrder) (unaligned : UnalignedFetch)
deriving DecidableEq, Repr

/-- The platform's parameters, fixed for one machine. -/
structure Config where
  x0Policy       : X0Policy
  halfOrder      : ByteOrder
  halfMisaligned : HalfMisaligned
  fetch          : FetchSource
  /-- FETCH_COHERENT (R54, D16): whether a store is seen by later fetches from data memory. -/
  fetchCoherent  : Bool
deriving DecidableEq, Repr

/-- The values `State.reset` carries: the spec's test configuration TC (92_eei_decisions.md) where TC fixes one, else a
DESIGN CHOICE of the model (assumption 2). No statement rests on them. -/
def Config.atReset : Config where
  x0Policy       := .hardwiredZero
  halfOrder      := .little
  halfMisaligned := .stuck
  fetch          := .programImage
  fetchCoherent  := true

end Sys2Proof
end

