-- ==== Sys2Proof/Syntax.lean ====
section
/-! DEFINITION. Syntax.lean: the 41 instructions (R4), their mnemonics and formats, and the shape of an encoding table ENC
(R59, R66, R69). -/

namespace Sys2Proof

/-- A register index: a 5-bit field, an integer in [0, 31] (R13, R31, R70). -/
abbrev Reg := BitVec 5

/-- One constructor per row of spec/opcode_table.json, in the table's order (R68). Immediates are the assembled fields, not yet
extended: `imm` is IMM_I or IMM_S, 11 bits (R71, R73), `shamt` is SHAMT, 4 bits (R72), `off` is IMM_B, 13 bits with bit 0
always 0 (R74, checked in WellFormed.lean), and the 16-bit `imm` of LI and JAL is IMM_U16 (R75). A store takes its value from
`rs` and its base from the rd-field, here `base` (R70). -/
inductive Instr where
  | lb (rd rs1 : Reg) (imm : BitVec 11)
  | lbu (rd rs1 : Reg) (imm : BitVec 11)
  | lw (rd rs1 : Reg) (imm : BitVec 11)
  | sb (rs base : Reg) (imm : BitVec 11)
  | sw (rs base : Reg) (imm : BitVec 11)
  | add (rd rs1 rs2 : Reg)
  | sub (rd rs1 rs2 : Reg)
  | xor (rd rs1 rs2 : Reg)
  | or (rd rs1 rs2 : Reg)
  | and (rd rs1 rs2 : Reg)
  | sll (rd rs1 rs2 : Reg)
  | srl (rd rs1 rs2 : Reg)
  | sra (rd rs1 rs2 : Reg)
  | slt (rd rs1 rs2 : Reg)
  | sltu (rd rs1 rs2 : Reg)
  | mul (rd rs1 rs2 : Reg)
  | mulh (rd rs1 rs2 : Reg)
  | mulhsu (rd rs1 rs2 : Reg)
  | mulhu (rd rs1 rs2 : Reg)
  | div (rd rs1 rs2 : Reg)
  | divu (rd rs1 rs2 : Reg)
  | rem (rd rs1 rs2 : Reg)
  | remu (rd rs1 rs2 : Reg)
  | addi (rd rs1 : Reg) (imm : BitVec 11)
  | xori (rd rs1 : Reg) (imm : BitVec 11)
  | ori (rd rs1 : Reg) (imm : BitVec 11)
  | andi (rd rs1 : Reg) (imm : BitVec 11)
  | slli (rd rs1 : Reg) (shamt : BitVec 4)
  | srli (rd rs1 : Reg) (shamt : BitVec 4)
  | srai (rd rs1 : Reg) (shamt : BitVec 4)
  | slti (rd rs1 : Reg) (imm : BitVec 11)
  | sltiu (rd rs1 : Reg) (imm : BitVec 11)
  | li (rd : Reg) (imm : BitVec 16)
  | beq (rs1 rs2 : Reg) (off : BitVec 13)
  | bne (rs1 rs2 : Reg) (off : BitVec 13)
  | blt (rs1 rs2 : Reg) (off : BitVec 13)
  | bge (rs1 rs2 : Reg) (off : BitVec 13)
  | bltu (rs1 rs2 : Reg) (off : BitVec 13)
  | bgeu (rs1 rs2 : Reg) (off : BitVec 13)
  | jal (rd : Reg) (imm : BitVec 16)
  | jalr (rd rs1 : Reg) (imm : BitVec 11)
deriving DecidableEq, Repr

/-- The 41 mnemonics of R4. -/
inductive Mnemonic where
  | lb | lbu | lw | sb | sw | add | sub | xor | or | and
  | sll | srl | sra | slt | sltu | mul | mulh | mulhsu | mulhu | div
  | divu | rem | remu | addi | xori | ori | andi | slli | srli | srai
  | slti | sltiu | li | beq | bne | blt | bge | bltu | bgeu | jal
  | jalr
deriving DecidableEq, Repr

/-- R4 and R68: every mnemonic, in the listing order. -/
def Mnemonic.all : List Mnemonic :=
  [.lb, .lbu, .lw, .sb, .sw, .add, .sub, .xor, .or, .and] ++
  [.sll, .srl, .sra, .slt, .sltu, .mul, .mulh, .mulhsu, .mulhu, .div] ++
  [.divu, .rem, .remu, .addi, .xori, .ori, .andi, .slli, .srli, .srai] ++
  [.slti, .sltiu, .li, .beq, .bne, .blt, .bge, .bltu, .bgeu, .jal] ++
  [.jalr]

/-- The mnemonic an instruction term carries. -/
def Instr.mnemonic : Instr → Mnemonic
  | .lb _ _ _ => .lb
  | .lbu _ _ _ => .lbu
  | .lw _ _ _ => .lw
  | .sb _ _ _ => .sb
  | .sw _ _ _ => .sw
  | .add _ _ _ => .add
  | .sub _ _ _ => .sub
  | .xor _ _ _ => .xor
  | .or _ _ _ => .or
  | .and _ _ _ => .and
  | .sll _ _ _ => .sll
  | .srl _ _ _ => .srl
  | .sra _ _ _ => .sra
  | .slt _ _ _ => .slt
  | .sltu _ _ _ => .sltu
  | .mul _ _ _ => .mul
  | .mulh _ _ _ => .mulh
  | .mulhsu _ _ _ => .mulhsu
  | .mulhu _ _ _ => .mulhu
  | .div _ _ _ => .div
  | .divu _ _ _ => .divu
  | .rem _ _ _ => .rem
  | .remu _ _ _ => .remu
  | .addi _ _ _ => .addi
  | .xori _ _ _ => .xori
  | .ori _ _ _ => .ori
  | .andi _ _ _ => .andi
  | .slli _ _ _ => .slli
  | .srli _ _ _ => .srli
  | .srai _ _ _ => .srai
  | .slti _ _ _ => .slti
  | .sltiu _ _ _ => .sltiu
  | .li _ _ => .li
  | .beq _ _ _ => .beq
  | .bne _ _ _ => .bne
  | .blt _ _ _ => .blt
  | .bge _ _ _ => .bge
  | .bltu _ _ _ => .bltu
  | .bgeu _ _ _ => .bgeu
  | .jal _ _ => .jal
  | .jalr _ _ _ => .jalr

/-- The operand layouts of section 4a of 30_encoding.md: which fields an instruction of the format has. -/
inductive Format where
  | r | i | sh | s | b | u
deriving DecidableEq, Repr

/-- The format of each mnemonic (R77 to R82; the operand lists are R70 to R75). -/
def Mnemonic.format : Mnemonic → Format
  | .add | .sub | .xor | .or | .and | .sll | .srl | .sra | .slt => .r
  | .sltu | .mul | .mulh | .mulhsu | .mulhu | .div | .divu | .rem | .remu => .r
  | .lb | .lbu | .lw | .addi | .xori | .ori | .andi | .slti | .sltiu => .i
  | .jalr => .i
  | .slli | .srli | .srai => .sh
  | .sb | .sw => .s
  | .beq | .bne | .blt | .bge | .bltu | .bgeu => .b
  | .li | .jal => .u

/-- One symbol of a bit-pattern: fixed 0, fixed 1, or don't care (R59). -/
inductive Sym where
  | zero | one | x
deriving DecidableEq, Repr

/-- A bit-pattern: its symbols, most significant bit first (R59). -/
abbrev Pattern := List Sym

/-- The bits `lo` to `hi` of a word, inclusive (R62). -/
structure BitRange where
  hi : Nat
  lo : Nat
deriving DecidableEq, Repr

/-- A field: the ranges it is assembled from, most significant first; no range at all where the format has no such field. -/
abbrev Layout := List BitRange

/-- One entry of the dispatch table: a pattern, the instruction it selects, and where its operand fields lie (R66, R69).
`rd` is the rd-field, which a store reads as its base; `rs2` is the second source, or a store's value register `rs` (R70).
`imm` holds the encoded bits of the immediate: for a branch its bits 12 to 1 (R74). -/
structure EncRow where
  mnemonic : Mnemonic
  pattern  : Pattern
  rd       : Layout
  rs1      : Layout
  rs2      : Layout
  imm      : Layout
deriving DecidableEq, Repr

/-- ENC, the open encoding parameter (R69, D1): the ordered dispatch table. -/
abbrev Enc := List EncRow

/-- Why start-up refuses an encoding table (R60, R67, R69, R159). -/
inductive EncError where
  /-- A pattern has a count of symbols other than 32 (R60). -/
  | malformedPattern
  /-- The entries are not exactly one per mnemonic (R66). -/
  | wrongEntries
  /-- Two patterns share a word (R67). -/
  | notExclusive
  /-- A field has a range outside 0 to 31 (R62), or a width or count of bit ranges other than R69 says. -/
  | badField
  /-- A store's base is not at the bit positions of the loads' rd, or IMM_S has the bit positions of their IMM_I (R69, R73). -/
  | badStore
deriving DecidableEq, Repr

end Sys2Proof
end

