-- ==== Sys2Proof/WellFormed.lean ====
section
/-! DEFINITION. WellFormed.lean: which instruction terms stand for an instruction of the hardware. The only operand value a
constructor can hold and no word can carry is an odd branch offset (R74); every register index and every other immediate is
legal (R91). -/

namespace Sys2Proof

/-- R74: "a 13-bit signed value with bit 0 always 0". -/
def evenOffset (off : BitVec 13) : Bool := !off.getLsbD 0

/-- An instruction term that some instruction word stands for. -/
def Instr.wf : Instr → Bool
  | .beq _ _ off | .bne _ _ off | .blt _ _ off | .bge _ _ off | .bltu _ _ off | .bgeu _ _ off => evenOffset off
  | .lb _ _ _ | .lbu _ _ _ | .lw _ _ _ | .sb _ _ _ | .sw _ _ _ | .add _ _ _
  | .sub _ _ _ | .xor _ _ _ | .or _ _ _ | .and _ _ _ | .sll _ _ _ | .srl _ _ _
  | .sra _ _ _ | .slt _ _ _ | .sltu _ _ _ | .mul _ _ _ | .mulh _ _ _ | .mulhsu _ _ _
  | .mulhu _ _ _ | .div _ _ _ | .divu _ _ _ | .rem _ _ _ | .remu _ _ _ | .addi _ _ _
  | .xori _ _ _ | .ori _ _ _ | .andi _ _ _ | .slli _ _ _ | .srli _ _ _ | .srai _ _ _
  | .slti _ _ _ | .sltiu _ _ _
  | .jalr _ _ _ | .li _ _ | .jal _ _ => true

end Sys2Proof
end

