-- ==== Sys2Proof/Decode.lean ====
section
/-! DEFINITION. Decode.lean: patterns and the matcher (R59 to R61), field extraction and the immediates (R62, R70 to R75), the
dispatch scan over any encoding table (R65), start-up's checks of a table (R60, R66, R67, R69, R159), the reference encoding
RE (R76 to R87), and an encoder written from RE's format tables (R77 to R82). -/

namespace Sys2Proof

/-! ## Patterns and the matcher -/

/-- `n` don't-care symbols. -/
def Pattern.any (n : Nat) : Pattern := List.replicate n .x

/-- The `n` fixed symbols of the number `v`, most significant first. -/
def Pattern.fixed : Nat → Nat → Pattern
  | 0, _ => []
  | n + 1, v => (if v.testBit n then .one else .zero) :: Pattern.fixed n v

/-- R61: bit i of the mask is 1 iff the pattern fixes bit i. -/
def Pattern.mask (p : Pattern) : IWord :=
  BitVec.ofNat 32 (p.foldl (fun acc s => 2 * acc + if s = .x then 0 else 1) 0)

/-- R61: bit i of the match value is the fixed value of bit i (0 where the pattern fixes none). -/
def Pattern.value (p : Pattern) : IWord :=
  BitVec.ofNat 32 (p.foldl (fun acc s => 2 * acc + if s = .one then 1 else 0) 0)

/-- R61: `Matches(w, p) = ((w AND mask) = match)`. -/
def Matches (w : IWord) (p : Pattern) : Bool := w &&& p.mask == p.value

/-! ## Fields and immediates -/

/-- How many bits a range holds (R62). -/
def BitRange.width (r : BitRange) : Nat := r.hi - r.lo + 1

/-- `extract_bits(w, start, end)`: the bits of the range, right-aligned (R62). -/
def extractBits (w : IWord) (r : BitRange) : Nat := w.toNat / 2 ^ r.lo % 2 ^ r.width

/-- The bits of a field assembled from its ranges, the first range in the high bits. -/
def gather (w : IWord) : Layout → Nat → Nat
  | [], acc => acc
  | r :: rest, acc => gather w rest (acc * 2 ^ r.width + extractBits w r)

/-- A field as a bit vector of `n` bits. -/
def field (n : Nat) (w : IWord) (l : Layout) : BitVec n := BitVec.ofNat n (gather w l 0)

/-- R70: the register index at the rd-field. -/
def EncRow.rdOf (row : EncRow) (w : IWord) : Reg := field 5 w row.rd
/-- R70: the register index rs1. -/
def EncRow.rs1Of (row : EncRow) (w : IWord) : Reg := field 5 w row.rs1
/-- R70: the register index rs2, or a store's rs. -/
def EncRow.rs2Of (row : EncRow) (w : IWord) : Reg := field 5 w row.rs2
/-- R71 and R73: the 11 bits of IMM_I or IMM_S. -/
def EncRow.imm11Of (row : EncRow) (w : IWord) : BitVec 11 := field 11 w row.imm
/-- R72: the 4 bits of SHAMT. -/
def EncRow.shamtOf (row : EncRow) (w : IWord) : BitVec 4 := field 4 w row.imm
/-- R74: the 13 bits of IMM_B, bit 0 always 0. -/
def EncRow.offOf (row : EncRow) (w : IWord) : BitVec 13 := BitVec.ofNat 13 (2 * gather w row.imm 0)
/-- R75: the 16 bits of IMM_U16. -/
def EncRow.imm16Of (row : EncRow) (w : IWord) : BitVec 16 := field 16 w row.imm

/-- The instruction a matched word stands for, its operands read from the row's fields (R70 to R75). -/
def EncRow.assemble (row : EncRow) (w : IWord) : Instr :=
  match row.mnemonic with
  | .lb => .lb (row.rdOf w) (row.rs1Of w) (row.imm11Of w)
  | .lbu => .lbu (row.rdOf w) (row.rs1Of w) (row.imm11Of w)
  | .lw => .lw (row.rdOf w) (row.rs1Of w) (row.imm11Of w)
  | .sb => .sb (row.rs2Of w) (row.rdOf w) (row.imm11Of w)
  | .sw => .sw (row.rs2Of w) (row.rdOf w) (row.imm11Of w)
  | .add => .add (row.rdOf w) (row.rs1Of w) (row.rs2Of w)
  | .sub => .sub (row.rdOf w) (row.rs1Of w) (row.rs2Of w)
  | .xor => .xor (row.rdOf w) (row.rs1Of w) (row.rs2Of w)
  | .or => .or (row.rdOf w) (row.rs1Of w) (row.rs2Of w)
  | .and => .and (row.rdOf w) (row.rs1Of w) (row.rs2Of w)
  | .sll => .sll (row.rdOf w) (row.rs1Of w) (row.rs2Of w)
  | .srl => .srl (row.rdOf w) (row.rs1Of w) (row.rs2Of w)
  | .sra => .sra (row.rdOf w) (row.rs1Of w) (row.rs2Of w)
  | .slt => .slt (row.rdOf w) (row.rs1Of w) (row.rs2Of w)
  | .sltu => .sltu (row.rdOf w) (row.rs1Of w) (row.rs2Of w)
  | .mul => .mul (row.rdOf w) (row.rs1Of w) (row.rs2Of w)
  | .mulh => .mulh (row.rdOf w) (row.rs1Of w) (row.rs2Of w)
  | .mulhsu => .mulhsu (row.rdOf w) (row.rs1Of w) (row.rs2Of w)
  | .mulhu => .mulhu (row.rdOf w) (row.rs1Of w) (row.rs2Of w)
  | .div => .div (row.rdOf w) (row.rs1Of w) (row.rs2Of w)
  | .divu => .divu (row.rdOf w) (row.rs1Of w) (row.rs2Of w)
  | .rem => .rem (row.rdOf w) (row.rs1Of w) (row.rs2Of w)
  | .remu => .remu (row.rdOf w) (row.rs1Of w) (row.rs2Of w)
  | .addi => .addi (row.rdOf w) (row.rs1Of w) (row.imm11Of w)
  | .xori => .xori (row.rdOf w) (row.rs1Of w) (row.imm11Of w)
  | .ori => .ori (row.rdOf w) (row.rs1Of w) (row.imm11Of w)
  | .andi => .andi (row.rdOf w) (row.rs1Of w) (row.imm11Of w)
  | .slli => .slli (row.rdOf w) (row.rs1Of w) (row.shamtOf w)
  | .srli => .srli (row.rdOf w) (row.rs1Of w) (row.shamtOf w)
  | .srai => .srai (row.rdOf w) (row.rs1Of w) (row.shamtOf w)
  | .slti => .slti (row.rdOf w) (row.rs1Of w) (row.imm11Of w)
  | .sltiu => .sltiu (row.rdOf w) (row.rs1Of w) (row.imm11Of w)
  | .li => .li (row.rdOf w) (row.imm16Of w)
  | .beq => .beq (row.rs1Of w) (row.rs2Of w) (row.offOf w)
  | .bne => .bne (row.rs1Of w) (row.rs2Of w) (row.offOf w)
  | .blt => .blt (row.rs1Of w) (row.rs2Of w) (row.offOf w)
  | .bge => .bge (row.rs1Of w) (row.rs2Of w) (row.offOf w)
  | .bltu => .bltu (row.rs1Of w) (row.rs2Of w) (row.offOf w)
  | .bgeu => .bgeu (row.rs1Of w) (row.rs2Of w) (row.offOf w)
  | .jal => .jal (row.rdOf w) (row.imm16Of w)
  | .jalr => .jalr (row.rdOf w) (row.rs1Of w) (row.imm11Of w)

/-! ## Dispatch -/

/-- R65: the first entry whose pattern matches, or `none`. -/
def decodeWith (e : Enc) (w : IWord) : Option Instr :=
  (e.find? fun row => Matches w row.pattern).map fun row => row.assemble w

/-! ## Start-up's checks of a table -/

/-- R60: every pattern has exactly 32 symbols. -/
def Enc.patternsWellFormed (e : Enc) : Bool := e.all fun row => row.pattern.length == 32

/-- R66: exactly one entry per mnemonic of R4. -/
def Enc.oneEntryEach (e : Enc) : Bool :=
  e.length == Mnemonic.all.length && Mnemonic.all.all fun m => e.any fun row => row.mnemonic == m

/-- R67: the two match values differ on some bit that both masks fix. -/
def Pattern.disjoint (p q : Pattern) : Bool := (p.value ^^^ q.value) &&& p.mask &&& q.mask != 0

/-- R67: no word matches the patterns of two entries. -/
def Enc.exclusive : Enc → Bool
  | [] => true
  | row :: rest => (rest.all fun other => row.pattern.disjoint other.pattern) && Enc.exclusive rest

/-- The bit positions a field is assembled from, most significant bit first. Two layouts with the same positions are the same
field, however its ranges are written. -/
def Layout.bits : Layout → List Nat
  | [] => []
  | r :: rest => (List.range' r.lo r.width).reverse ++ Layout.bits rest

/-- How many ranges of a word a list of bit positions is: a position that follows the one before it downwards opens no new
range. -/
def rangeCount : List Nat → Nat
  | [] => 0
  | [_] => 1
  | a :: b :: rest => (if a = b + 1 then 0 else 1) + rangeCount (b :: rest)

/-- How many bit ranges a field is assembled from (R69), ranges that join counted as one. -/
def Layout.ranges (l : Layout) : Nat := rangeCount l.bits

/-- R62 and R69: every range lies within 0 to 31, and no two ranges of one field share a bit. -/
def Layout.rangesOk : Layout → Bool
  | [] => true
  | r :: rest => decide (r.lo ≤ r.hi) && decide (r.hi ≤ 31) &&
      (rest.all fun q => decide (q.hi < r.lo) || decide (r.hi < q.lo)) && Layout.rangesOk rest

/-- A field of `n` bits. -/
def Layout.isField (l : Layout) (n : Nat) : Bool := l.rangesOk && l.bits.length == n

/-- R69 to R75: the widths of the operand fields of each format, and the counts of bit ranges of the immediates: two or more for
the I-immediate ("scattered"), two, four and three for the S-, B- and U16-immediates. -/
def EncRow.fieldsOk (row : EncRow) : Bool :=
  match row.mnemonic.format with
  | .r => row.rd.isField 5 && row.rs1.isField 5 && row.rs2.isField 5 && row.imm.isField 0
  | .i => row.rd.isField 5 && row.rs1.isField 5 && row.rs2.isField 0 && row.imm.isField 11 && decide (2 ≤ row.imm.ranges)
  | .sh => row.rd.isField 5 && row.rs1.isField 5 && row.rs2.isField 0 && row.imm.isField 4
  | .s => row.rd.isField 5 && row.rs1.isField 0 && row.rs2.isField 5 && row.imm.isField 11 && row.imm.ranges == 2
  | .b => row.rd.isField 0 && row.rs1.isField 5 && row.rs2.isField 5 && row.imm.isField 12 && row.imm.ranges == 4
  | .u => row.rd.isField 5 && row.rs1.isField 0 && row.rs2.isField 0 && row.imm.isField 16 && row.imm.ranges == 3

/-- R69 and R73: a store reads its base at the bit positions of the loads' rd field, and the bit positions of IMM_S are not those
of the loads' IMM_I. -/
def Enc.storesOk (e : Enc) : Bool :=
  e.all fun row => row.mnemonic.format != .s ||
    e.all fun other => !(other.mnemonic == .lb || other.mnemonic == .lbu || other.mnemonic == .lw) ||
      (row.rd.bits == other.rd.bits && row.imm.bits != other.imm.bits)

/-- The first check a table fails, in R159's order: the patterns, then the table. -/
def Enc.firstError (e : Enc) : Option EncError :=
  if !e.patternsWellFormed then some .malformedPattern
  else if !e.oneEntryEach then some .wrongEntries
  else if !e.exclusive then some .notExclusive
  else if !(e.all EncRow.fieldsOk) then some .badField
  else if !e.storesOk then some .badStore
  else none

/-- A table that passed start-up's checks: no other table ever runs an instruction (R60, R159). -/
abbrev CheckedEnc := { e : Enc // e.firstError = none }

/-- R159: start-up builds the table once and refuses one that fails a check. -/
def Enc.startUp (e : Enc) : Except EncError CheckedEnc :=
  match h : e.firstError with
  | none => .ok ⟨e, h⟩
  | some err => .error err

/-! ## The reference encoding RE (R76 to R87) -/

/-- R76: `rd = w[11:7]`. -/
def reRd : Layout := [⟨11, 7⟩]
/-- R76: `rs1 = w[19:15]`. -/
def reRs1 : Layout := [⟨19, 15⟩]
/-- R76: `rs2 = w[24:20]`. -/
def reRs2 : Layout := [⟨24, 20⟩]

/-- R77: format R. -/
def reRowR (m : Mnemonic) (funct7 funct3 : Nat) : EncRow where
  mnemonic := m
  pattern := Pattern.fixed 7 funct7 ++ Pattern.any 10 ++ Pattern.fixed 3 funct3 ++ Pattern.any 5 ++ Pattern.fixed 7 0b0110011
  rd := reRd
  rs1 := reRs1
  rs2 := reRs2
  imm := []

/-- R78: format I, `w[30]` fixed 0, the immediate at `w[31]` and `w[29:20]`. -/
def reRowI (m : Mnemonic) (funct3 opcode : Nat) : EncRow where
  mnemonic := m
  pattern := Pattern.any 1 ++ Pattern.fixed 1 0 ++ Pattern.any 15 ++ Pattern.fixed 3 funct3 ++ Pattern.any 5 ++
    Pattern.fixed 7 opcode
  rd := reRd
  rs1 := reRs1
  rs2 := []
  imm := [⟨31, 31⟩, ⟨29, 20⟩]

/-- R79: format SH, `w[31:24]` fixed, the shift amount at `w[23:20]`. -/
def reRowSh (m : Mnemonic) (top funct3 : Nat) : EncRow where
  mnemonic := m
  pattern := Pattern.fixed 8 top ++ Pattern.any 9 ++ Pattern.fixed 3 funct3 ++ Pattern.any 5 ++ Pattern.fixed 7 0b0010011
  rd := reRd
  rs1 := reRs1
  rs2 := []
  imm := [⟨23, 20⟩]

/-- R80: format S, `w[25]` fixed 0, the value register at `w[24:20]`, the base at the rd position. -/
def reRowS (m : Mnemonic) (funct3 : Nat) : EncRow where
  mnemonic := m
  pattern := Pattern.any 6 ++ Pattern.fixed 1 0 ++ Pattern.any 10 ++ Pattern.fixed 3 funct3 ++ Pattern.any 5 ++
    Pattern.fixed 7 0b0100011
  rd := reRd
  rs1 := []
  rs2 := reRs2
  imm := [⟨31, 26⟩, ⟨19, 15⟩]

/-- R81: format B, the offset's bits 12 to 1 at `w[31]`, `w[7]`, `w[30:25]` and `w[11:8]`. -/
def reRowB (m : Mnemonic) (funct3 : Nat) : EncRow where
  mnemonic := m
  pattern := Pattern.any 17 ++ Pattern.fixed 3 funct3 ++ Pattern.any 5 ++ Pattern.fixed 7 0b1100011
  rd := []
  rs1 := reRs1
  rs2 := reRs2
  imm := [⟨31, 31⟩, ⟨7, 7⟩, ⟨30, 25⟩, ⟨11, 8⟩]

/-- R82: format U, `w[25]` fixed 0, the immediate at `w[31:26]`, `w[19:15]` and `w[24:20]`. -/
def reRowU (m : Mnemonic) (opcode : Nat) : EncRow where
  mnemonic := m
  pattern := Pattern.any 6 ++ Pattern.fixed 1 0 ++ Pattern.any 10 ++ Pattern.fixed 3 0 ++ Pattern.any 5 ++ Pattern.fixed 7 opcode
  rd := reRd
  rs1 := []
  rs2 := []
  imm := [⟨31, 26⟩, ⟨19, 15⟩, ⟨24, 20⟩]

/-- R86: the LOAD and STORE classes. -/
def reLoadStore : Enc :=
  [reRowI .lb 0b000 0b0000011, reRowI .lbu 0b100 0b0000011, reRowI .lw 0b010 0b0000011, reRowS .sb 0b000, reRowS .sw 0b010]

/-- R84: the OP class, ADD to SLTU. -/
def reAlu : Enc :=
  [reRowR .add 0b0000000 0b000, reRowR .sub 0b0100000 0b000, reRowR .xor 0b0000000 0b100, reRowR .or 0b0000000 0b110,
   reRowR .and 0b0000000 0b111, reRowR .sll 0b0000000 0b001, reRowR .srl 0b0000000 0b101, reRowR .sra 0b0100000 0b101,
   reRowR .slt 0b0000000 0b010, reRowR .sltu 0b0000000 0b011]

/-- R84: the OP class with funct7 0000001, MUL to REMU. -/
def reMulDiv : Enc :=
  [reRowR .mul 0b0000001 0b000, reRowR .mulh 0b0000001 0b001, reRowR .mulhsu 0b0000001 0b010, reRowR .mulhu 0b0000001 0b011,
   reRowR .div 0b0000001 0b100, reRowR .divu 0b0000001 0b101, reRowR .rem 0b0000001 0b110, reRowR .remu 0b0000001 0b111]

/-- R85 and R83: the OP-IMM class and LI. -/
def reAluImm : Enc :=
  [reRowI .addi 0b000 0b0010011, reRowI .xori 0b100 0b0010011, reRowI .ori 0b110 0b0010011, reRowI .andi 0b111 0b0010011,
   reRowSh .slli 0b00000000 0b001, reRowSh .srli 0b00000000 0b101, reRowSh .srai 0b01000000 0b101,
   reRowI .slti 0b010 0b0010011, reRowI .sltiu 0b011 0b0010011, reRowU .li 0b0110111]

/-- R87: the BRANCH, JAL and JALR classes. -/
def reControl : Enc :=
  [reRowB .beq 0b000, reRowB .bne 0b001, reRowB .blt 0b100, reRowB .bge 0b101, reRowB .bltu 0b110, reRowB .bgeu 0b111,
   reRowU .jal 0b1101111, reRowI .jalr 0b000 0b1100111]

/-- RE, in R68's order. -/
def re : Enc := reLoadStore ++ reAlu ++ reMulDiv ++ reAluImm ++ reControl

/-- RE passes start-up's checks (R88). -/
theorem re_checked : re.firstError = none := by decide +kernel

/-- RE as a checked table. -/
def reChecked : CheckedEnc := ⟨re, re_checked⟩

/-- `Decode` under RE (R65): total on every 32-bit word, `none` where no pattern matches (R89). -/
def decode (w : IWord) : Option Instr := decodeWith re w

/-! ## The encoder, from RE's format tables -/

/-- R77: funct7, rs2, rs1, funct3, rd, opcode. -/
def encodeR (funct7 : BitVec 7) (funct3 : BitVec 3) (rd rs1 rs2 : Reg) : IWord :=
  funct7 ++ rs2 ++ rs1 ++ funct3 ++ rd ++ 0b0110011#7

/-- R78: imm[10], 0, imm[9:0], rs1, funct3, rd, opcode. -/
def encodeI (funct3 : BitVec 3) (opcode : BitVec 7) (rd rs1 : Reg) (imm : BitVec 11) : IWord :=
  imm.extractLsb' 10 1 ++ 0#1 ++ imm.extractLsb' 0 10 ++ rs1 ++ funct3 ++ rd ++ opcode

/-- R79: eight fixed bits, shamt, rs1, funct3, rd, opcode. -/
def encodeSh (top : BitVec 8) (funct3 : BitVec 3) (rd rs1 : Reg) (shamt : BitVec 4) : IWord :=
  top ++ shamt ++ rs1 ++ funct3 ++ rd ++ 0b0010011#7

/-- R80: imm[10:5], 0, rs, imm[4:0], funct3, base, opcode. -/
def encodeS (funct3 : BitVec 3) (rs base : Reg) (imm : BitVec 11) : IWord :=
  imm.extractLsb' 5 6 ++ 0#1 ++ rs ++ imm.extractLsb' 0 5 ++ funct3 ++ base ++ 0b0100011#7

/-- R81: off[12], off[10:5], rs2, rs1, funct3, off[4:1], off[11], opcode. -/
def encodeB (funct3 : BitVec 3) (rs1 rs2 : Reg) (off : BitVec 13) : IWord :=
  off.extractLsb' 12 1 ++ off.extractLsb' 5 6 ++ rs2 ++ rs1 ++ funct3 ++ off.extractLsb' 1 4 ++ off.extractLsb' 11 1 ++
    0b1100011#7

/-- R82: imm[15:10], 0, imm[4:0], imm[9:5], 000, rd, opcode. -/
def encodeU (opcode : BitVec 7) (rd : Reg) (imm : BitVec 16) : IWord :=
  imm.extractLsb' 10 6 ++ 0#1 ++ imm.extractLsb' 0 5 ++ imm.extractLsb' 5 5 ++ 0b000#3 ++ rd ++ opcode

/-- The RE word of a well-formed instruction; the codes are those of R83 to R87. -/
def encode : Instr → IWord
  | .lb rd rs1 imm => encodeI 0b000 0b0000011 rd rs1 imm
  | .lbu rd rs1 imm => encodeI 0b100 0b0000011 rd rs1 imm
  | .lw rd rs1 imm => encodeI 0b010 0b0000011 rd rs1 imm
  | .sb rs base imm => encodeS 0b000 rs base imm
  | .sw rs base imm => encodeS 0b010 rs base imm
  | .add rd rs1 rs2 => encodeR 0b0000000 0b000 rd rs1 rs2
  | .sub rd rs1 rs2 => encodeR 0b0100000 0b000 rd rs1 rs2
  | .xor rd rs1 rs2 => encodeR 0b0000000 0b100 rd rs1 rs2
  | .or rd rs1 rs2 => encodeR 0b0000000 0b110 rd rs1 rs2
  | .and rd rs1 rs2 => encodeR 0b0000000 0b111 rd rs1 rs2
  | .sll rd rs1 rs2 => encodeR 0b0000000 0b001 rd rs1 rs2
  | .srl rd rs1 rs2 => encodeR 0b0000000 0b101 rd rs1 rs2
  | .sra rd rs1 rs2 => encodeR 0b0100000 0b101 rd rs1 rs2
  | .slt rd rs1 rs2 => encodeR 0b0000000 0b010 rd rs1 rs2
  | .sltu rd rs1 rs2 => encodeR 0b0000000 0b011 rd rs1 rs2
  | .mul rd rs1 rs2 => encodeR 0b0000001 0b000 rd rs1 rs2
  | .mulh rd rs1 rs2 => encodeR 0b0000001 0b001 rd rs1 rs2
  | .mulhsu rd rs1 rs2 => encodeR 0b0000001 0b010 rd rs1 rs2
  | .mulhu rd rs1 rs2 => encodeR 0b0000001 0b011 rd rs1 rs2
  | .div rd rs1 rs2 => encodeR 0b0000001 0b100 rd rs1 rs2
  | .divu rd rs1 rs2 => encodeR 0b0000001 0b101 rd rs1 rs2
  | .rem rd rs1 rs2 => encodeR 0b0000001 0b110 rd rs1 rs2
  | .remu rd rs1 rs2 => encodeR 0b0000001 0b111 rd rs1 rs2
  | .addi rd rs1 imm => encodeI 0b000 0b0010011 rd rs1 imm
  | .xori rd rs1 imm => encodeI 0b100 0b0010011 rd rs1 imm
  | .ori rd rs1 imm => encodeI 0b110 0b0010011 rd rs1 imm
  | .andi rd rs1 imm => encodeI 0b111 0b0010011 rd rs1 imm
  | .slli rd rs1 shamt => encodeSh 0b00000000 0b001 rd rs1 shamt
  | .srli rd rs1 shamt => encodeSh 0b00000000 0b101 rd rs1 shamt
  | .srai rd rs1 shamt => encodeSh 0b01000000 0b101 rd rs1 shamt
  | .slti rd rs1 imm => encodeI 0b010 0b0010011 rd rs1 imm
  | .sltiu rd rs1 imm => encodeI 0b011 0b0010011 rd rs1 imm
  | .li rd imm => encodeU 0b0110111 rd imm
  | .beq rs1 rs2 off => encodeB 0b000 rs1 rs2 off
  | .bne rs1 rs2 off => encodeB 0b001 rs1 rs2 off
  | .blt rs1 rs2 off => encodeB 0b100 rs1 rs2 off
  | .bge rs1 rs2 off => encodeB 0b101 rs1 rs2 off
  | .bltu rs1 rs2 off => encodeB 0b110 rs1 rs2 off
  | .bgeu rs1 rs2 off => encodeB 0b111 rs1 rs2 off
  | .jal rd imm => encodeU 0b1101111 rd imm
  | .jalr rd rs1 imm => encodeI 0b000 0b1100111 rd rs1 imm

/-! ## The table's numbering -/

/-- The instruction the decoder reads from a word whose bits are numbered as spec/opcode_table.json numbers them. Every
instruction is one 32-bit word (R58), whose bits above `nbits` are 0. -/
def decodeTableWord (nbits w : Nat) : Option Instr :=
  let v := w % 2 ^ nbits
  if v < 2 ^ 32 then decode (BitVec.ofNat 32 v) else none

end Sys2Proof
end

