-- ==== Sys2Proof/Machine/State.lean ====
section
/-! DEFINITION. Machine/State.lean: the machine's state as plain data (10_state.md), the reasons a step can stop, and the state
after reset (R35 to R37, R160). -/

namespace Sys2Proof.Machine

/-- Data memory: the listed bytes by address, in one canonical form (`Memory.wf` in Ops.lean). An unlisted address reads as
`Memory.unlisted` (assumption 5). -/
abbrev Memory := List Host.Cell

/-- The separate program image of FETCH (R39, D15): the listed words by the PC that fetches them, addresses strictly rising.
A PC that is not listed has no word. -/
abbrev Image := List (Nat × IWord)

/-- The architectural state is 32 registers, one PC and one memory (10_state.md). Beside it stand the platform's parameters and
program image, which no step changes (assumption 1), and one record of the model's own (assumption 9). -/
structure State where
  /-- The 32 general registers, 16 bits each, one bank (R13, R17). Read and written through Ops.lean only (R16). -/
  regs : Vector Word 32
  /-- The program counter (R20): between steps the address of the next word, during a step that of this instruction. -/
  pc : Word
  /-- The byte-addressed data memory (R29, R38). -/
  mem : Memory
  /-- The separate program image, when FETCH reads one. -/
  image : Image
  /-- The byte addresses stored to since the start, strictly rising, kept only while FETCH_COHERENT is false (R54). -/
  storedTo : List Nat
  /-- X0_POLICY, HALF_ORDER, HALF_MISALIGNED, FETCH and FETCH_COHERENT. -/
  cfg : Config
deriving DecidableEq, Repr

/-- Why the machine stops. The state stays as it was before the step. -/
inductive Fault where
  /-- Raised by the core when no dispatch entry matches the word `w` (R148, R150). Safe: an outer loop might skip the word. -/
  | decodeFail (w : IWord)
  /-- Raised by LW and SW at the odd address `a` under HALF_MISALIGNED = STUCK: the access has no step (R46). Safe. -/
  | halfStuck (a : Word)
  /-- Raised by LW and SW at the odd address `a` under HALF_MISALIGNED = FAULT: a platform fault outside the core (R46). Safe. -/
  | halfPlatformFault (a : Word)
  /-- Raised by the fetch when FETCH yields no word at the PC: stuck (U13). Safe. -/
  | noFetchWord (pc : Word)
  /-- Raised by the fetch when it would read a byte the program has stored to, from data memory that is not coherent: no defined
  result (R54). Safe. -/
  | incoherentFetch (pc : Word)
deriving DecidableEq, Repr

/-- Why an instruction has no meaning. -/
inductive Refusal where
  /-- An arm of `exec` for an instruction that is not modelled, by the table's mnemonic. Safe. No arm raises it. -/
  | notModelled (mnemonic : String)
deriving DecidableEq, Repr

/-- What a step or a meaning answers. -/
abbrev Result := Host.Outcome State Fault Refusal

/-- What the outside world supplies when the machine state is created (R35 to R37, R160). -/
structure Launch where
  cfg      : Config
  /-- INIT_REGS (R35). -/
  initRegs : Vector Word 32
  /-- RESET_PC (R36). -/
  resetPc  : Word
  /-- INIT_MEM: the loaded data, and the program where FETCH reads data memory (R37). -/
  initMem  : Memory
  /-- The program image, where FETCH reads one. -/
  image    : Image
deriving DecidableEq, Repr

/-- The machine right after it is created (R160). Under HARDWIRED_ZERO the slot of x0 holds 0x0000 (R35). -/
def State.launch (l : Launch) : State where
  regs := if l.cfg.x0Policy = .hardwiredZero then l.initRegs.set 0 0 else l.initRegs
  pc := l.resetPc
  mem := l.initMem
  image := l.image
  storedTo := []
  cfg := l.cfg

/-- The launch of `State.reset`: the spec fixes none of these values, so each is a DESIGN CHOICE (assumptions 2 to 5 and 7). -/
def Launch.atReset : Launch where
  cfg := Config.atReset
  initRegs := Vector.replicate 32 0
  resetPc := 0
  initMem := []
  image := []

/-- The machine right after reset. -/
def State.reset : State := State.launch Launch.atReset

end Sys2Proof.Machine
end

