-- ==== Sys2Proof/Machine/Operands.lean ====
section
/-! DEFINITION. Machine/Operands.lean: every operand form: the numeric utilities (R63, R64), the immediates as 16-bit operands
(R71 to R75), shift amounts, effective addresses, the high half of a product. -/

namespace Sys2Proof.Machine

/-- `sext_N(v)` to 16 bits (R63), for N from 1 to 16. -/
def sext {n : Nat} (v : BitVec n) : Word := v.signExtend 16

/-- `zext_N(v)` to 16 bits (00_scope.md section 4). -/
def zext {n : Nat} (v : BitVec n) : Word := v.setWidth 16

/-- `asr(v, n)` for n from 0 to 16 (R64): the type admits no other amount (U22). -/
def asr (v : Word) (n : Fin 17) : Word :=
  (v >>> n.val) ||| (if v.msb then (0xFFFF#16 <<< (16 - n.val)) else 0)

/-- R93: the amount a register shift takes, the low 4 bits of the rs2 value. -/
def shiftOfReg (b : Word) : Fin 16 := ⟨b.toNat % 16, Nat.mod_lt _ (by decide)⟩

/-- R72: the amount an immediate shift takes, the 4-bit field zero-extended. -/
def shiftOfImm (shamt : BitVec 4) : Fin 16 := shamt.toFin

/-- SLL and SLLI (R99, R109): zeros fill the low bits. -/
def shiftLeft (a : Word) (n : Fin 16) : Word := a <<< n.val

/-- SRL and SRLI (R100, R110): zeros fill the high bits. -/
def shiftRight (a : Word) (n : Fin 16) : Word := a >>> n.val

/-- SRA and SRAI (R101, R111). -/
def shiftRightArith (a : Word) (n : Fin 16) : Word := asr a n.castSucc

/-- R127 and R128: base plus sign-extended displacement, modulo 2^16. -/
def effectiveAddress (base : Word) (imm : BitVec 11) : Word := base + sext imm

/-- R135: a taken branch adds the sign-extended offset to the branch's own address, unshifted. -/
def branchTarget (pc : Word) (off : BitVec 13) : Word := pc + sext off

/-- R142: JAL adds the raw 16-bit offset to its own address. -/
def jalTarget (pc : Word) (imm : BitVec 16) : Word := pc + imm

/-- R143: JALR jumps to rs1's value plus the sign-extended immediate; no bit is cleared. -/
def jalrTarget (base : Word) (imm : BitVec 11) : Word := base + sext imm

/-- R142 and R143: the link value. -/
def linkOf (pc : Word) : Word := pc + 4

/-- R116: bits 31 to 16 of the 32-bit representation of an exact product. -/
def highHalf (p : Int) : Word := (BitVec.ofInt 32 p).extractLsb' 16 16

/-- R117: bits 15 to 0 of the product. -/
def mulLow (a b : Word) : Word := BitVec.ofNat 16 (uint a * uint b)

/-- R118: signed by signed. -/
def mulHighSS (a b : Word) : Word := highHalf (sint a * sint b)

/-- R119: the left operand signed, the right one unsigned. -/
def mulHighSU (a b : Word) : Word := highHalf (sint a * uint b)

/-- R120: unsigned by unsigned. -/
def mulHighUU (a b : Word) : Word := highHalf (uint a * uint b)

/-- R121: all ones for a zero divisor, 0x8000 for the overflow pair, else truncation toward zero. -/
def divSigned (a b : Word) : Word :=
  if b = 0 then 0xFFFF
  else if a = 0x8000 ∧ b = 0xFFFF then 0x8000
  else BitVec.ofInt 16 ((sint a).tdiv (sint b))

/-- R122. -/
def divUnsigned (a b : Word) : Word := if b = 0 then 0xFFFF else BitVec.ofNat 16 (uint a / uint b)

/-- R123: the dividend for a zero divisor, 0 for the overflow pair, else what truncating division leaves. -/
def remSigned (a b : Word) : Word :=
  if b = 0 then a
  else if a = 0x8000 ∧ b = 0xFFFF then 0
  else BitVec.ofInt 16 (sint a - sint b * (sint a).tdiv (sint b))

/-- R124. -/
def remUnsigned (a b : Word) : Word := if b = 0 then a else BitVec.ofNat 16 (uint a % uint b)

end Sys2Proof.Machine
end

