-- ==== Sys2Proof/Machine/Flags.lean ====
section
/-! DEFINITION. Machine/Flags.lean: the core has no flag (R24). What other cores keep in flags is here a relation between two
register values, which decides a branch (R136 to R141) or is written to a register as 0x0001 or 0x0000 (R102, R103). -/

namespace Sys2Proof.Machine

/-- `a = b` (R136). -/
def relEq (a b : Word) : Bool := a == b
/-- `a != b` (R137). -/
def relNe (a b : Word) : Bool := a != b
/-- `sint(a) < sint(b)` (R102, R138). -/
def relLt (a b : Word) : Bool := decide (sint a < sint b)
/-- `sint(a) >= sint(b)` (R139). -/
def relGe (a b : Word) : Bool := decide (sint b ≤ sint a)
/-- `uint(a) < uint(b)` (R103, R140). -/
def relLtu (a b : Word) : Bool := decide (uint a < uint b)
/-- `uint(a) >= uint(b)` (R141). -/
def relGeu (a b : Word) : Bool := decide (uint b ≤ uint a)

/-- R102: 0x0001 where the relation holds, else 0x0000. -/
def setWord (c : Bool) : Word := if c then 0x0001 else 0x0000

end Sys2Proof.Machine
end

