-- ==== Sys2Proof/Machine/Ops.lean ====
section
/-! DEFINITION. Machine/Ops.lean: the named operations over memory, registers and the PC (the ports of R10, R31 to R33), the
fetch (R39, R54, R161), the core's one error outcome (R148), and the shapes of effect the instruction families share. There is
no trap entry and no return from one (R152): raising the decode failure is the whole of taking an exception. -/

namespace Sys2Proof.Machine

/-! ## Data memory as canonical data -/

/-- What an address that is not listed reads as (assumption 5). -/
def Memory.unlisted : Byte := 0

/-- Is every address above `lo`, are the addresses strictly rising and within 0 to 0xFFFF, and is no listed byte `unlisted`? -/
def Memory.wfFrom : Nat → Memory → Bool
  | _, [] => true
  | lo, (k, v) :: rest => decide (lo ≤ k) && decide (k < 65536) && v != Memory.unlisted && Memory.wfFrom (k + 1) rest

/-- The canonical form: equal memories are equal lists. -/
def Memory.wf (m : Memory) : Bool := Memory.wfFrom 0 m

/-- The byte at an address (R42). -/
def Memory.read : Memory → Nat → Byte
  | [], _ => Memory.unlisted
  | (k, v) :: rest, a => if k = a then v else Memory.read rest a

/-- Put a byte before a list of higher addresses, unless it is what an unlisted address reads as. -/
def Memory.cons (a : Nat) (v : Byte) (rest : Memory) : Memory := if v = Memory.unlisted then rest else (a, v) :: rest

/-- Set the byte at an address and keep the canonical form (R42). -/
def Memory.write : Memory → Nat → Byte → Memory
  | [], a, v => Memory.cons a v []
  | (k, b) :: rest, a, v =>
    if a < k then Memory.cons a v ((k, b) :: rest)
    else if a = k then Memory.cons a v rest
    else (k, b) :: Memory.write rest a v

/-! ## The program image, and the record of stored addresses -/

/-- Are the addresses strictly rising and within 0 to 0xFFFF? -/
def Image.wfFrom : Nat → Image → Bool
  | _, [] => true
  | lo, (k, _) :: rest => decide (lo ≤ k) && decide (k < 65536) && Image.wfFrom (k + 1) rest

/-- The image's canonical form. -/
def Image.wf (m : Image) : Bool := Image.wfFrom 0 m

/-- The word the image holds for a PC, if any. -/
def Image.find : Image → Nat → Option IWord
  | [], _ => none
  | (k, w) :: rest, a => if k = a then some w else Image.find rest a

/-- Load one word into the image (the loader of R37, outside the core). -/
def Image.put : Image → Nat → IWord → Image
  | [], a, w => [(a, w)]
  | (k, u) :: rest, a, w =>
    if a < k then (a, w) :: (k, u) :: rest
    else if a = k then (a, w) :: rest
    else (k, u) :: Image.put rest a w

/-- Strictly rising addresses within 0 to 0xFFFF. -/
def Stored.wfFrom : Nat → List Nat → Bool
  | _, [] => true
  | lo, k :: rest => decide (lo ≤ k) && decide (k < 65536) && Stored.wfFrom (k + 1) rest

/-- The canonical form of the record of stored addresses. -/
def Stored.wf (l : List Nat) : Bool := Stored.wfFrom 0 l

/-- Note one stored address, once. -/
def Stored.add : List Nat → Nat → List Nat
  | [], a => [a]
  | k :: rest, a => if a < k then a :: k :: rest else if a = k then k :: rest else k :: Stored.add rest a

/-! ## The register port (R31) -/

/-- Does the register file give index `r` its hard-wired zero (R16)? -/
def State.hardwired (s : State) (r : Reg) : Bool := s.cfg.x0Policy == .hardwiredZero && r == 0

/-- `read(i)`: the last value written, or 0x0000 for a hard-wired x0 (R15, R16). -/
def State.readReg (s : State) (r : Reg) : Word :=
  if s.hardwired r then 0 else s.regs[r.toNat]'(by have := r.isLt; omega)

/-- `write(i, v)`: all 16 bits (R19); no effect on a hard-wired x0 (R16). -/
def State.writeReg (s : State) (r : Reg) (v : Word) : State :=
  { s with regs := if s.hardwired r then s.regs else s.regs.set r.toNat v (by have := r.isLt; omega) }

/-! ## The PC port (R32) -/

/-- PC `write(t)`: any 16-bit value, never checked (R23). -/
def State.writePc (s : State) (t : Word) : State := { s with pc := t }

/-- PC `advance(delta)`: `write(read() + delta)`, modulo 2^16 (R10, R22). -/
def State.advance (s : State) (delta : Word) : State := s.writePc (s.pc + delta)

/-! ## The memory port (R33) -/

/-- `read_byte(a)` (R42). -/
def State.readByte (s : State) (a : Word) : Byte := Memory.read s.mem a.toNat

/-- Note a stored byte address while fetches are not coherent with stores (R54, assumption 9). -/
def State.noteStore (s : State) (a : Word) : State :=
  { s with storedTo := if s.cfg.fetchCoherent then s.storedTo else Stored.add s.storedTo a.toNat }

/-- `write_byte(a, v)` (R42). -/
def State.writeByte (s : State) (a : Word) (v : Byte) : State :=
  { s with mem := Memory.write s.mem a.toNat v }.noteStore a

/-- The 16-bit value of the bytes at `a` and `a + 1` (R43). -/
def joinHalf : ByteOrder → Byte → Byte → Word
  | .little, b0, b1 => b1 ++ b0
  | .big, b0, b1 => b0 ++ b1

/-- The byte of a 16-bit value that lies at `a` (R43). -/
def firstByte : ByteOrder → Word → Byte
  | .little, v => v.extractLsb' 0 8
  | .big, v => v.extractLsb' 8 8

/-- The byte of a 16-bit value that lies at `a + 1` (R43). -/
def secondByte : ByteOrder → Word → Byte
  | .little, v => v.extractLsb' 8 8
  | .big, v => v.extractLsb' 0 8

/-- The address of the second byte of a 16-bit access, modulo 2^16 (R43, R46). -/
def nextByte (a : Word) : Word := a + 1

/-- What stops a 16-bit access at `a`, if anything: nothing at an even address; at an odd one (0xFFFF among them) what
HALF_MISALIGNED says (R46). -/
def State.halfStop (s : State) (a : Word) : Option Fault :=
  if a.getLsbD 0 then
    match s.cfg.halfMisaligned with
    | .stuck => some (.halfStuck a)
    | .splitWrap => none
    | .fault => some (.halfPlatformFault a)
  else none

/-- `read_halfword(a)` (R43, R46). -/
def State.readHalf (s : State) (a : Word) : Except Fault Word :=
  match s.halfStop a with
  | some f => .error f
  | none => .ok (joinHalf s.cfg.halfOrder (s.readByte a) (s.readByte (nextByte a)))

/-- `write_halfword(a, v)` (R43, R46). -/
def State.writeHalf (s : State) (a : Word) (v : Word) : Except Fault State :=
  match s.halfStop a with
  | some f => .error f
  | none => .ok ((s.writeByte a (firstByte s.cfg.halfOrder v)).writeByte (nextByte a) (secondByte s.cfg.halfOrder v))

/-! ## The fetch (R39, R54, R161) -/

/-- Is the PC a multiple of 4 (R145)? -/
def pcAligned (pc : Word) : Bool := pc.toNat % 4 == 0

/-- The four byte addresses of an instruction word in data memory, modulo 2^16. -/
def fetchAddresses (pc : Word) : List Word := [pc, pc + 1, pc + 2, pc + 3]

/-- A 32-bit word from the four bytes at the PC, in the order FETCH names (D15). -/
def joinWord : ByteOrder → Byte → Byte → Byte → Byte → IWord
  | .little, b0, b1, b2, b3 => b3 ++ b2 ++ b1 ++ b0
  | .big, b0, b1, b2, b3 => b0 ++ b1 ++ b2 ++ b3

/-- The byte of a word that lies at the PC plus `k` (D15). -/
def byteOfWord (order : ByteOrder) (w : IWord) (k : Nat) : Byte :=
  match order with
  | .little => w.extractLsb' (8 * k) 8
  | .big => w.extractLsb' (8 * (3 - k)) 8

/-- Has the program stored to a byte of the word at the PC (R54)? That only such a fetch stops, and not already the store to a byte
that was fetched before, is a DESIGN CHOICE (assumption 18). -/
def State.fetchDirty (s : State) : Bool := (fetchAddresses s.pc).any fun a => s.storedTo.contains a.toNat

/-- The word in data memory at the PC. -/
def State.wordAtPc (s : State) (order : ByteOrder) : IWord :=
  joinWord order (s.readByte s.pc) (s.readByte (s.pc + 1)) (s.readByte (s.pc + 2)) (s.readByte (s.pc + 3))

/-- `Fetch(pc)` of R161. From data memory: stuck at an unaligned PC where the platform yields no word there, stopped at a byte
whose latest store fetch may not see (R54), else the four bytes. -/
def State.fetch (s : State) : Except Fault IWord :=
  match s.cfg.fetch with
  | .programImage =>
    match Image.find s.image s.pc.toNat with
    | some w => .ok w
    | none => .error (.noFetchWord s.pc)
  | .dataMemory order unaligned =>
    if !pcAligned s.pc && unaligned == .noWord then .error (.noFetchWord s.pc)
    else if !s.cfg.fetchCoherent && s.fetchDirty then .error (.incoherentFetch s.pc)
    else .ok (s.wordAtPc order)

/-- The loader's part (R37): put the word where the next fetch reads it. A platform that yields no word at an unaligned PC is
told to read there, since nothing else could make the next step run the word. -/
def State.placeWord (s : State) (w : IWord) : State :=
  match s.cfg.fetch with
  | .programImage => { s with image := Image.put s.image s.pc.toNat w }
  | .dataMemory order _ =>
    let put (m : Memory) (k : Nat) : Memory := Memory.write m (s.pc + BitVec.ofNat 16 k).toNat (byteOfWord order w k)
    { s with
      mem := put (put (put (put s.mem 0) 1) 2) 3
      storedTo := s.storedTo.filter fun a => !(fetchAddresses s.pc).any fun b => b.toNat == a
      cfg := if pcAligned s.pc then s.cfg else { s.cfg with fetch := .dataMemory order .bytesAtPc } }

/-! ## The core's one error outcome -/

/-- `raise DecodeFail(w)` (R148): no state is saved, no mode changes, control does not move, no bit of state is written
(R149, R152). -/
def raiseDecodeFail (w : IWord) : Result := .fault (.decodeFail w)

/-! ## The shapes of effect the families share (R11: read, compute, write, then the PC) -/

/-- Write one register, then go to the next word: every instruction that is no store and no control transfer (R21). -/
def writeAndAdvance (s : State) (rd : Reg) (v : Word) : Result := .next ((s.writeReg rd v).advance 4)

/-- R93 and R116: `x[rd] <- f(x[rs1], x[rs2]); pc <- pc + 4`. -/
def opRegReg (f : Word → Word → Word) (rd rs1 rs2 : Reg) (s : State) : Result :=
  writeAndAdvance s rd (f (s.readReg rs1) (s.readReg rs2))

/-- R104: `x[rd] <- f(x[rs1], immediate); pc <- pc + 4`, the 11-bit immediate sign-extended. -/
def opRegImm (f : Word → Word → Word) (rd rs1 : Reg) (imm : BitVec 11) (s : State) : Result :=
  writeAndAdvance s rd (f (s.readReg rs1) (sext imm))

/-- R104 with the 4-bit SHAMT. -/
def opRegShamt (f : Word → Fin 16 → Word) (rd rs1 : Reg) (shamt : BitVec 4) (s : State) : Result :=
  writeAndAdvance s rd (f (s.readReg rs1) (shiftOfImm shamt))

/-- R127: one byte read, extended by `ext`, then `x[rd]` and the PC. -/
def loadByte (ext : Byte → Word) (rd rs1 : Reg) (imm : BitVec 11) (s : State) : Result :=
  writeAndAdvance s rd (ext (s.readByte (effectiveAddress (s.readReg rs1) imm)))

/-- R127 and R131: one halfword read; the read comes first, so it stops even a load to a hard-wired x0 (R134). -/
def loadHalf (rd rs1 : Reg) (imm : BitVec 11) (s : State) : Result :=
  match s.readHalf (effectiveAddress (s.readReg rs1) imm) with
  | .error f => .fault f
  | .ok v => writeAndAdvance s rd v

/-- R128 and R132: one byte written, then the PC. -/
def storeByte (rs base : Reg) (imm : BitVec 11) (s : State) : Result :=
  .next ((s.writeByte (effectiveAddress (s.readReg base) imm) ((s.readReg rs).extractLsb' 0 8)).advance 4)

/-- R128 and R133: one halfword written, then the PC. -/
def storeHalf (rs base : Reg) (imm : BitVec 11) (s : State) : Result :=
  match s.writeHalf (effectiveAddress (s.readReg base) imm) (s.readReg rs) with
  | .error f => .fault f
  | .ok t => .next (t.advance 4)

/-- R135: to the target where the relation holds, else to the next word. -/
def branchOn (rel : Word → Word → Bool) (rs1 rs2 : Reg) (off : BitVec 13) (s : State) : Result :=
  if rel (s.readReg rs1) (s.readReg rs2) then .next (s.writePc (branchTarget s.pc off)) else .next (s.advance 4)

/-- R142 and R143: the link into rd, then the PC to a target computed before the link is written. -/
def linkAndJump (rd : Reg) (target : Word) (s : State) : Result :=
  .next ((s.writeReg rd (linkOf s.pc)).writePc target)

end Sys2Proof.Machine
end

