-- ==== Sys2Proof/Machine/AluImmediate.lean ====
section
/-! DEFINITION. Machine/AluImmediate.lean: the register-immediate ALU family and LI (41_alu_immediate.md). -/

namespace Sys2Proof.Machine

/-- ADDI (R105). -/
def execAddi (rd rs1 : Reg) (imm : BitVec 11) (s : State) : Result := opRegImm (fun a b => a + b) rd rs1 imm s

/-- XORI (R106). -/
def execXori (rd rs1 : Reg) (imm : BitVec 11) (s : State) : Result := opRegImm (fun a b => a ^^^ b) rd rs1 imm s

/-- ORI (R107). -/
def execOri (rd rs1 : Reg) (imm : BitVec 11) (s : State) : Result := opRegImm (fun a b => a ||| b) rd rs1 imm s

/-- ANDI (R108). -/
def execAndi (rd rs1 : Reg) (imm : BitVec 11) (s : State) : Result := opRegImm (fun a b => a &&& b) rd rs1 imm s

/-- SLTI (R112). -/
def execSlti (rd rs1 : Reg) (imm : BitVec 11) (s : State) : Result := opRegImm (fun a b => setWord (relLt a b)) rd rs1 imm s

/-- SLTIU (R113). -/
def execSltiu (rd rs1 : Reg) (imm : BitVec 11) (s : State) : Result := opRegImm (fun a b => setWord (relLtu a b)) rd rs1 imm s

/-- SLLI (R109). -/
def execSlli (rd rs1 : Reg) (shamt : BitVec 4) (s : State) : Result := opRegShamt shiftLeft rd rs1 shamt s

/-- SRLI (R110). -/
def execSrli (rd rs1 : Reg) (shamt : BitVec 4) (s : State) : Result := opRegShamt shiftRight rd rs1 shamt s

/-- SRAI (R111). -/
def execSrai (rd rs1 : Reg) (shamt : BitVec 4) (s : State) : Result := opRegShamt shiftRightArith rd rs1 shamt s

/-- LI (R114): the raw 16-bit immediate; no source register is read. -/
def execLi (rd : Reg) (imm : BitVec 16) (s : State) : Result := writeAndAdvance s rd imm

end Sys2Proof.Machine
end

