-- ==== Sys2Proof/Machine/AluRegister.lean ====
section
/-! DEFINITION. Machine/AluRegister.lean: the register-register ALU family (40_alu_register.md). -/

namespace Sys2Proof.Machine

/-- ADD (R94). -/
def execAdd (rd rs1 rs2 : Reg) (s : State) : Result := opRegReg (fun a b => a + b) rd rs1 rs2 s

/-- SUB (R95). -/
def execSub (rd rs1 rs2 : Reg) (s : State) : Result := opRegReg (fun a b => a - b) rd rs1 rs2 s

/-- XOR (R96). -/
def execXor (rd rs1 rs2 : Reg) (s : State) : Result := opRegReg (fun a b => a ^^^ b) rd rs1 rs2 s

/-- OR (R97). -/
def execOr (rd rs1 rs2 : Reg) (s : State) : Result := opRegReg (fun a b => a ||| b) rd rs1 rs2 s

/-- AND (R98). -/
def execAnd (rd rs1 rs2 : Reg) (s : State) : Result := opRegReg (fun a b => a &&& b) rd rs1 rs2 s

/-- SLL (R99). -/
def execSll (rd rs1 rs2 : Reg) (s : State) : Result := opRegReg (fun a b => shiftLeft a (shiftOfReg b)) rd rs1 rs2 s

/-- SRL (R100). -/
def execSrl (rd rs1 rs2 : Reg) (s : State) : Result := opRegReg (fun a b => shiftRight a (shiftOfReg b)) rd rs1 rs2 s

/-- SRA (R101). -/
def execSra (rd rs1 rs2 : Reg) (s : State) : Result := opRegReg (fun a b => shiftRightArith a (shiftOfReg b)) rd rs1 rs2 s

/-- SLT (R102). -/
def execSlt (rd rs1 rs2 : Reg) (s : State) : Result := opRegReg (fun a b => setWord (relLt a b)) rd rs1 rs2 s

/-- SLTU (R103). -/
def execSltu (rd rs1 rs2 : Reg) (s : State) : Result := opRegReg (fun a b => setWord (relLtu a b)) rd rs1 rs2 s

end Sys2Proof.Machine
end

