-- ==== Sys2Proof/Machine/Control.lean ====
section
/-! DEFINITION. Machine/Control.lean: conditional branches, JAL and JALR (44_control_transfer.md). -/

namespace Sys2Proof.Machine

/-- BEQ (R136). -/
def execBeq (rs1 rs2 : Reg) (off : BitVec 13) (s : State) : Result := branchOn relEq rs1 rs2 off s

/-- BNE (R137). -/
def execBne (rs1 rs2 : Reg) (off : BitVec 13) (s : State) : Result := branchOn relNe rs1 rs2 off s

/-- BLT (R138). -/
def execBlt (rs1 rs2 : Reg) (off : BitVec 13) (s : State) : Result := branchOn relLt rs1 rs2 off s

/-- BGE (R139). -/
def execBge (rs1 rs2 : Reg) (off : BitVec 13) (s : State) : Result := branchOn relGe rs1 rs2 off s

/-- BLTU (R140). -/
def execBltu (rs1 rs2 : Reg) (off : BitVec 13) (s : State) : Result := branchOn relLtu rs1 rs2 off s

/-- BGEU (R141). -/
def execBgeu (rs1 rs2 : Reg) (off : BitVec 13) (s : State) : Result := branchOn relGeu rs1 rs2 off s

/-- JAL (R142). -/
def execJal (rd : Reg) (imm : BitVec 16) (s : State) : Result := linkAndJump rd (jalTarget s.pc imm) s

/-- JALR (R143): the target from the old rs1, absolute. -/
def execJalr (rd rs1 : Reg) (imm : BitVec 11) (s : State) : Result :=
  linkAndJump rd (jalrTarget (s.readReg rs1) imm) s

end Sys2Proof.Machine
end

