-- ==== Sys2Proof/Machine/LoadStore.lean ====
section
/-! DEFINITION. Machine/LoadStore.lean: the load and store family (43_load_store.md). -/

namespace Sys2Proof.Machine

/-- LB (R129). -/
def execLb (rd rs1 : Reg) (imm : BitVec 11) (s : State) : Result := loadByte sext rd rs1 imm s

/-- LBU (R130). -/
def execLbu (rd rs1 : Reg) (imm : BitVec 11) (s : State) : Result := loadByte zext rd rs1 imm s

/-- LW (R131). -/
def execLw (rd rs1 : Reg) (imm : BitVec 11) (s : State) : Result := loadHalf rd rs1 imm s

/-- SB (R132). -/
def execSb (rs base : Reg) (imm : BitVec 11) (s : State) : Result := storeByte rs base imm s

/-- SW (R133). -/
def execSw (rs base : Reg) (imm : BitVec 11) (s : State) : Result := storeHalf rs base imm s

end Sys2Proof.Machine
end

