-- ==== Sys2Proof/Machine/MulDiv.lean ====
section
/-! DEFINITION. Machine/MulDiv.lean: the multiply, divide and remainder family (42_muldiv.md). -/

namespace Sys2Proof.Machine

/-- MUL (R117). -/
def execMul (rd rs1 rs2 : Reg) (s : State) : Result := opRegReg mulLow rd rs1 rs2 s

/-- MULH (R118). -/
def execMulh (rd rs1 rs2 : Reg) (s : State) : Result := opRegReg mulHighSS rd rs1 rs2 s

/-- MULHSU (R119). -/
def execMulhsu (rd rs1 rs2 : Reg) (s : State) : Result := opRegReg mulHighSU rd rs1 rs2 s

/-- MULHU (R120). -/
def execMulhu (rd rs1 rs2 : Reg) (s : State) : Result := opRegReg mulHighUU rd rs1 rs2 s

/-- DIV (R121). -/
def execDiv (rd rs1 rs2 : Reg) (s : State) : Result := opRegReg divSigned rd rs1 rs2 s

/-- DIVU (R122). -/
def execDivu (rd rs1 rs2 : Reg) (s : State) : Result := opRegReg divUnsigned rd rs1 rs2 s

/-- REM (R123). -/
def execRem (rd rs1 rs2 : Reg) (s : State) : Result := opRegReg remSigned rd rs1 rs2 s

/-- REMU (R124). -/
def execRemu (rd rs1 rs2 : Reg) (s : State) : Result := opRegReg remUnsigned rd rs1 rs2 s

end Sys2Proof.Machine
end

