-- ==== Sys2Proof/Machine/Step.lean ====
section
/-! DEFINITION. Machine/Step.lean: the core's step on a word (R30), the step of the machine (one turn of R161's loop), and the
loader's helper `withFetchWord`. -/

namespace Sys2Proof.Machine

/-- `Step(w)` of R30, over any checked encoding table: decode first (R151); no entry, no effect (R149). -/
def coreStepWith (e : CheckedEnc) (w : IWord) (s : State) : Result :=
  match decodeWith e.val w with
  | none => raiseDecodeFail w
  | some i => exec i s

/-- One turn of R161's loop over any checked encoding table: fetch the word at the PC, then `Step(w)`. -/
def stepWith (e : CheckedEnc) (s : State) : Result :=
  match s.fetch with
  | .error f => .fault f
  | .ok w => coreStepWith e w s

/-- `Step(w)` under RE. -/
def coreStep (w : IWord) (s : State) : Result := coreStepWith reChecked w s

/-- One step of the machine under RE (assumption 6). -/
def step : State → Host.Outcome State Fault Refusal := stepWith reChecked

/-- The state with one table word placed where `step` fetches its next instruction (assumption 8). -/
def State.withFetchWord (s : State) (nbits w : Nat) : State := s.placeWord (BitVec.ofNat 32 (w % 2 ^ nbits))

end Sys2Proof.Machine
end

