-- ==== Sys2Proof/Machine/Trace.lean ====
section
/-! DEFINITION. Machine/Trace.lean: the register and mnemonic names (R4, R14), the assembler spelling of an instruction (R92), and
the trace record, which only observes (R34, R157, assumption 14). Nothing of the machine's step calls anything here. -/

namespace Sys2Proof.Machine

/-- R14: register i is named "x" followed by its index. -/
def regName (r : Reg) : String := "x" ++ toString r.toNat

/-- R4 and R92: mnemonics in upper case. -/
def mnemonicName : Mnemonic → String
  | .lb => "LB"
  | .lbu => "LBU"
  | .lw => "LW"
  | .sb => "SB"
  | .sw => "SW"
  | .add => "ADD"
  | .sub => "SUB"
  | .xor => "XOR"
  | .or => "OR"
  | .and => "AND"
  | .sll => "SLL"
  | .srl => "SRL"
  | .sra => "SRA"
  | .slt => "SLT"
  | .sltu => "SLTU"
  | .mul => "MUL"
  | .mulh => "MULH"
  | .mulhsu => "MULHSU"
  | .mulhu => "MULHU"
  | .div => "DIV"
  | .divu => "DIVU"
  | .rem => "REM"
  | .remu => "REMU"
  | .addi => "ADDI"
  | .xori => "XORI"
  | .ori => "ORI"
  | .andi => "ANDI"
  | .slli => "SLLI"
  | .srli => "SRLI"
  | .srai => "SRAI"
  | .slti => "SLTI"
  | .sltiu => "SLTIU"
  | .li => "LI"
  | .beq => "BEQ"
  | .bne => "BNE"
  | .blt => "BLT"
  | .bge => "BGE"
  | .bltu => "BLTU"
  | .bgeu => "BGEU"
  | .jal => "JAL"
  | .jalr => "JALR"

/-- R92: `rd, rs1, rs2`. -/
def textRRR (a b c : Reg) : String := regName a ++ ", " ++ regName b ++ ", " ++ regName c

/-- R92: `rd, rs1, imm`, the immediate in signed decimal. -/
def textRRI (a b : Reg) (imm : Int) : String := regName a ++ ", " ++ regName b ++ ", " ++ toString imm

/-- R92: `rd, imm(rs1)`, and for a store `rs, imm(base)`. -/
def textMem (a b : Reg) (imm : BitVec 11) : String := regName a ++ ", " ++ toString imm.toInt ++ "(" ++ regName b ++ ")"

/-- R92: `rd, imm`, the 16-bit pattern in decimal. -/
def textRI (a : Reg) (imm : BitVec 16) : String := regName a ++ ", " ++ toString imm.toNat

/-- R92: the operands as an assembler spells them. -/
def operandText : Instr → String
  | .lb rd rs1 imm => textMem rd rs1 imm
  | .lbu rd rs1 imm => textMem rd rs1 imm
  | .lw rd rs1 imm => textMem rd rs1 imm
  | .sb rs base imm => textMem rs base imm
  | .sw rs base imm => textMem rs base imm
  | .add rd rs1 rs2 => textRRR rd rs1 rs2
  | .sub rd rs1 rs2 => textRRR rd rs1 rs2
  | .xor rd rs1 rs2 => textRRR rd rs1 rs2
  | .or rd rs1 rs2 => textRRR rd rs1 rs2
  | .and rd rs1 rs2 => textRRR rd rs1 rs2
  | .sll rd rs1 rs2 => textRRR rd rs1 rs2
  | .srl rd rs1 rs2 => textRRR rd rs1 rs2
  | .sra rd rs1 rs2 => textRRR rd rs1 rs2
  | .slt rd rs1 rs2 => textRRR rd rs1 rs2
  | .sltu rd rs1 rs2 => textRRR rd rs1 rs2
  | .mul rd rs1 rs2 => textRRR rd rs1 rs2
  | .mulh rd rs1 rs2 => textRRR rd rs1 rs2
  | .mulhsu rd rs1 rs2 => textRRR rd rs1 rs2
  | .mulhu rd rs1 rs2 => textRRR rd rs1 rs2
  | .div rd rs1 rs2 => textRRR rd rs1 rs2
  | .divu rd rs1 rs2 => textRRR rd rs1 rs2
  | .rem rd rs1 rs2 => textRRR rd rs1 rs2
  | .remu rd rs1 rs2 => textRRR rd rs1 rs2
  | .addi rd rs1 imm => textRRI rd rs1 imm.toInt
  | .xori rd rs1 imm => textRRI rd rs1 imm.toInt
  | .ori rd rs1 imm => textRRI rd rs1 imm.toInt
  | .andi rd rs1 imm => textRRI rd rs1 imm.toInt
  | .slli rd rs1 shamt => textRRI rd rs1 (Int.ofNat shamt.toNat)
  | .srli rd rs1 shamt => textRRI rd rs1 (Int.ofNat shamt.toNat)
  | .srai rd rs1 shamt => textRRI rd rs1 (Int.ofNat shamt.toNat)
  | .slti rd rs1 imm => textRRI rd rs1 imm.toInt
  | .sltiu rd rs1 imm => textRRI rd rs1 imm.toInt
  | .li rd imm => textRI rd imm
  | .beq rs1 rs2 off => textRRI rs1 rs2 off.toInt
  | .bne rs1 rs2 off => textRRI rs1 rs2 off.toInt
  | .blt rs1 rs2 off => textRRI rs1 rs2 off.toInt
  | .bge rs1 rs2 off => textRRI rs1 rs2 off.toInt
  | .bltu rs1 rs2 off => textRRI rs1 rs2 off.toInt
  | .bgeu rs1 rs2 off => textRRI rs1 rs2 off.toInt
  | .jal rd imm => textRI rd imm
  | .jalr rd rs1 imm => textRRI rd rs1 imm.toInt

/-- R92: the assembler line of an instruction. -/
def assemblyText (i : Instr) : String := mnemonicName i.mnemonic ++ " " ++ operandText i

/-- R34 and R157: "mnemonic, operands, before/after register and PC values". -/
structure TraceRecord where
  mnemonic   : String
  operands   : String
  regsBefore : Vector Word 32
  regsAfter  : Vector Word 32
  pcBefore   : Word
  pcAfter    : Word
deriving DecidableEq, Repr

/-- The register values the port reads, x0 to x31 (R31). -/
def State.readAll (s : State) : Vector Word 32 := Vector.ofFn fun i => s.readReg (BitVec.ofFin i)

/-- The record of one executed instruction. -/
def traceRecord (i : Instr) (before after : State) : TraceRecord where
  mnemonic := mnemonicName i.mnemonic
  operands := operandText i
  regsBefore := before.readAll
  regsAfter := after.readAll
  pcBefore := before.pc
  pcAfter := after.pc

/-- The instruction the next step runs, if its word is fetched and decodes. -/
def State.nextInstr (s : State) : Option Instr :=
  match s.fetch with
  | .error _ => none
  | .ok w => decode w

/-- A step and the record it emits: one for each instruction that completes (R34). -/
def stepTraced (s : State) : Result × Option TraceRecord :=
  match step s with
  | .next t => (.next t, s.nextInstr.map fun i => traceRecord i s t)
  | .fault f => (.fault f, none)
  | .refused r => (.refused r, none)

end Sys2Proof.Machine
end

