-- ==== Sys2Proof/Machine/RunLoop.lean ====
section
/-! DEFINITION. Machine/RunLoop.lean: the outer loop of R161 as a function of a bound on its turns. STOP_PC is a property of the
harness, not of the hardware (D17, assumption 15). -/

namespace Sys2Proof.Machine

/-- How a run ends. -/
inductive RunEnd where
  /-- `pc = STOP_PC`: the word there is not fetched (R161). -/
  | atStop (s : State)
  /-- A fault, with the state before the step that raised it: a decode failure changes nothing (R149, R150). -/
  | faulted (f : Fault) (s : State)
  /-- A refusal, with the state before the step. -/
  | refused (r : Refusal) (s : State)
  /-- The bound on turns is used up. -/
  | outOfTurns (s : State)
deriving DecidableEq, Repr

/-- R161: stop before the fetch when the PC is STOP_PC, else one step; at most `n` steps. -/
def runLoop (stopPc : Word) : Nat → State → RunEnd
  | 0, s => if s.pc = stopPc then .atStop s else .outOfTurns s
  | n + 1, s =>
    if s.pc = stopPc then .atStop s
    else
      match step s with
      | .next t => runLoop stopPc n t
      | .fault f => .faulted f s
      | .refused r => .refused r s

end Sys2Proof.Machine
end

