-- ==== Sys2Proof/Safety.lean ====
section
/-! DEFINITION. Safety.lean: the invariant of the state and what counts as a safe run, in the terms claims use. -/

namespace Sys2Proof

open Sys2Proof.Machine

/-- The machine's data are in canonical form, and the slot of a hard-wired x0 holds 0 (R16, R35, R42, R54). -/
structure StateInv (s : State) : Prop where
  memory : Memory.wf s.mem = true
  image  : Image.wf s.image = true
  stored : Stored.wf s.storedTo = true
  x0     : s.cfg.x0Policy = .hardwiredZero → s.regs[0] = 0

/-- What a launch must supply for the invariant to hold: canonical data (R37). -/
structure LaunchOk (l : Launch) : Prop where
  memory : Memory.wf l.initMem = true
  image  : Image.wf l.image = true

/-- The states a machine launched with `l` can reach. -/
inductive ReachableFrom (l : Launch) : State → Prop where
  | start : ReachableFrom l (State.launch l)
  | step {s t : State} : ReachableFrom l s → Machine.step s = .next t → ReachableFrom l t

/-- A run of `n` steps that meets no fault and no refusal (R150: a claim must show that no decode failure occurs). -/
def RunsSafely : Nat → State → Prop
  | 0, _ => True
  | n + 1, s => ∃ t, Machine.step s = .next t ∧ RunsSafely n t

/-- An even address, or SPLIT_WRAP: nothing stops a 16-bit access there (R46). -/
def Machine.State.HalfOk (s : State) (a : Word) : Prop := a.toNat % 2 = 0 ∨ s.cfg.halfMisaligned = .splitWrap

/-- The register an instruction writes, if any (R18). -/
def destOf : Instr → Option Reg
  | .add rd _ _ | .sub rd _ _ | .xor rd _ _ | .or rd _ _ | .and rd _ _ | .sll rd _ _ | .srl rd _ _ | .sra rd _ _
  | .slt rd _ _ | .sltu rd _ _ | .mul rd _ _ | .mulh rd _ _ | .mulhsu rd _ _ | .mulhu rd _ _ | .div rd _ _ | .divu rd _ _
  | .rem rd _ _ | .remu rd _ _ | .addi rd _ _ | .xori rd _ _ | .ori rd _ _ | .andi rd _ _ | .slti rd _ _ | .sltiu rd _ _
  | .slli rd _ _ | .srli rd _ _ | .srai rd _ _ | .lb rd _ _ | .lbu rd _ _ | .lw rd _ _ | .jalr rd _ _ => some rd
  | .li rd _ | .jal rd _ => some rd
  | .sb _ _ _ | .sw _ _ _ | .beq _ _ _ | .bne _ _ _ | .blt _ _ _ | .bge _ _ _ | .bltu _ _ _ | .bgeu _ _ _ => none

/-- The address an instruction stores to, and how many bytes (R40). -/
def storeOf (s : State) : Instr → Option (Word × Nat)
  | .sb _ base imm => some (effectiveAddress (s.readReg base) imm, 1)
  | .sw _ base imm => some (effectiveAddress (s.readReg base) imm, 2)
  | .add _ _ _ | .sub _ _ _ | .xor _ _ _ | .or _ _ _ | .and _ _ _ | .sll _ _ _ | .srl _ _ _ | .sra _ _ _
  | .slt _ _ _ | .sltu _ _ _ | .mul _ _ _ | .mulh _ _ _ | .mulhsu _ _ _ | .mulhu _ _ _ | .div _ _ _ | .divu _ _ _
  | .rem _ _ _ | .remu _ _ _ | .addi _ _ _ | .xori _ _ _ | .ori _ _ _ | .andi _ _ _ | .slti _ _ _ | .sltiu _ _ _
  | .slli _ _ _ | .srli _ _ _ | .srai _ _ _ | .lb _ _ _ | .lbu _ _ _ | .lw _ _ _ | .jalr _ _ _ | .li _ _ | .jal _ _
  | .beq _ _ _ | .bne _ _ _ | .blt _ _ _ | .bge _ _ _ | .bltu _ _ _ | .bgeu _ _ _ => none

/-- The registers an instruction reads (R18). -/
def srcsOf : Instr → List Reg
  | .add _ rs1 rs2 | .sub _ rs1 rs2 | .xor _ rs1 rs2 | .or _ rs1 rs2 | .and _ rs1 rs2 | .sll _ rs1 rs2 | .srl _ rs1 rs2
  | .sra _ rs1 rs2 | .slt _ rs1 rs2 | .sltu _ rs1 rs2 | .mul _ rs1 rs2 | .mulh _ rs1 rs2 | .mulhsu _ rs1 rs2
  | .mulhu _ rs1 rs2 | .div _ rs1 rs2 | .divu _ rs1 rs2 | .rem _ rs1 rs2 | .remu _ rs1 rs2 => [rs1, rs2]
  | .beq rs1 rs2 _ | .bne rs1 rs2 _ | .blt rs1 rs2 _ | .bge rs1 rs2 _ | .bltu rs1 rs2 _ | .bgeu rs1 rs2 _ => [rs1, rs2]
  | .sb rs base _ | .sw rs base _ => [base, rs]
  | .addi _ rs1 _ | .xori _ rs1 _ | .ori _ rs1 _ | .andi _ rs1 _ | .slti _ rs1 _ | .sltiu _ rs1 _ | .lb _ rs1 _
  | .lbu _ rs1 _ | .lw _ rs1 _ | .jalr _ rs1 _ => [rs1]
  | .slli _ rs1 _ | .srli _ rs1 _ | .srai _ rs1 _ => [rs1]
  | .li _ _ | .jal _ _ => []

/-- Where an instruction that completes may go: a branch to the next word or its target, JAL and JALR to their targets, and
every other instruction to the next word (R21). -/
def mayGoTo (s : State) : Instr → Word → Prop
  | .beq _ _ off, t | .bne _ _ off, t | .blt _ _ off, t | .bge _ _ off, t | .bltu _ _ off, t | .bgeu _ _ off, t =>
    t = s.pc + 4 ∨ t = s.pc + sext off
  | .jal _ imm, t => t = s.pc + imm
  | .jalr _ rs1 imm, t => t = s.readReg rs1 + sext imm
  | .add _ _ _, t | .sub _ _ _, t | .xor _ _ _, t | .or _ _ _, t | .and _ _ _, t | .sll _ _ _, t | .srl _ _ _, t
  | .sra _ _ _, t | .slt _ _ _, t | .sltu _ _ _, t | .mul _ _ _, t | .mulh _ _ _, t | .mulhsu _ _ _, t | .mulhu _ _ _, t
  | .div _ _ _, t | .divu _ _ _, t | .rem _ _ _, t | .remu _ _ _, t | .addi _ _ _, t | .xori _ _ _, t | .ori _ _ _, t
  | .andi _ _ _, t | .slli _ _ _, t | .srli _ _ _, t | .srai _ _ _, t | .slti _ _ _, t | .sltiu _ _ _, t | .li _ _, t
  | .lb _ _ _, t | .lbu _ _ _, t | .lw _ _ _, t | .sb _ _ _, t | .sw _ _ _, t => t = s.pc + 4

/-- The state with another value in the slot of x0, which a hard-wired x0 never shows. -/
def Machine.State.withSlot0 (s : State) (v : Word) : State := { s with regs := s.regs.set 0 v }

/-- An outcome with its next state changed by `f`. -/
def mapNext (f : State → State) : Result → Result
  | .next t => .next (f t)
  | .fault r => .fault r
  | .refused r => .refused r

end Sys2Proof
end

