-- ==== Sys2Proof/Certificates/Slice0/Obligations.lean ====
section
/-! DEFINITION. Certificates/Slice0/Obligations.lean: the statements for the provers. Each docstring names the rules of spec/ it
formalises, or says that it is derived. Every statement about a state holds for every value of every parameter in `cfg`.
"RE" in a docstring: the statement's decode clauses name words of the reference encoding, the spec's own choice (30_encoding.md
section 5: "RE is not the CAHPv4 wire format"; log entry 6). "D9" to "D13" and "D26": a clause rests on that decision of the spec's own
(92_eei_decisions.md; log entry 17); D11 is rs1 as the left operand. Such a statement is derived. -/

namespace Sys2Proof.Claims

open Sys2Proof Sys2Proof.Machine

/-! ## The words of each format as numbers (R77 to R82), written apart from the model's encoder -/

/-- R77. -/
def wordR (funct7 funct3 : Nat) (rd rs1 rs2 : Reg) : IWord :=
  BitVec.ofNat 32 (funct7 * 2 ^ 25 + rs2.toNat * 2 ^ 20 + rs1.toNat * 2 ^ 15 + funct3 * 2 ^ 12 + rd.toNat * 2 ^ 7 + 0b0110011)

/-- R78: bit 10 of the immediate at bit 31, bit 30 zero, bits 9 to 0 at bits 29 to 20. -/
def wordI (funct3 opcode : Nat) (rd rs1 : Reg) (imm : BitVec 11) : IWord :=
  BitVec.ofNat 32 (imm.toNat / 2 ^ 10 * 2 ^ 31 + imm.toNat % 2 ^ 10 * 2 ^ 20 + rs1.toNat * 2 ^ 15 + funct3 * 2 ^ 12 +
    rd.toNat * 2 ^ 7 + opcode)

/-- R79: eight fixed bits, then the shift amount at bits 23 to 20. -/
def wordSh (top funct3 : Nat) (rd rs1 : Reg) (shamt : BitVec 4) : IWord :=
  BitVec.ofNat 32 (top * 2 ^ 24 + shamt.toNat * 2 ^ 20 + rs1.toNat * 2 ^ 15 + funct3 * 2 ^ 12 + rd.toNat * 2 ^ 7 + 0b0010011)

/-- R80: bits 10 to 5 of the immediate at bits 31 to 26, bit 25 zero, bits 4 to 0 at bits 19 to 15. -/
def wordS (funct3 : Nat) (rs base : Reg) (imm : BitVec 11) : IWord :=
  BitVec.ofNat 32 (imm.toNat / 2 ^ 5 * 2 ^ 26 + rs.toNat * 2 ^ 20 + imm.toNat % 2 ^ 5 * 2 ^ 15 + funct3 * 2 ^ 12 +
    base.toNat * 2 ^ 7 + 0b0100011)

/-- R81: offset bits 12, 10 to 5, 4 to 1 and 11 at bits 31, 30 to 25, 11 to 8 and 7. -/
def wordB (funct3 : Nat) (rs1 rs2 : Reg) (off : BitVec 13) : IWord :=
  BitVec.ofNat 32 (off.toNat / 2 ^ 12 * 2 ^ 31 + off.toNat / 2 ^ 5 % 2 ^ 6 * 2 ^ 25 + rs2.toNat * 2 ^ 20 + rs1.toNat * 2 ^ 15 +
    funct3 * 2 ^ 12 + off.toNat / 2 % 2 ^ 4 * 2 ^ 8 + off.toNat / 2 ^ 11 % 2 * 2 ^ 7 + 0b1100011)

/-- R82: immediate bits 15 to 10, 4 to 0 and 9 to 5 at bits 31 to 26, 24 to 20 and 19 to 15; bits 25 and 14 to 12 zero. -/
def wordU (opcode : Nat) (rd : Reg) (imm : BitVec 16) : IWord :=
  BitVec.ofNat 32 (imm.toNat / 2 ^ 10 * 2 ^ 26 + imm.toNat % 2 ^ 5 * 2 ^ 20 + imm.toNat / 2 ^ 5 % 2 ^ 5 * 2 ^ 15 +
    rd.toNat * 2 ^ 7 + opcode)

/-! ## Frames -/

/-- Register `rd` took the value `v`, the PC is `p`, and nothing else changed. Under HARDWIRED_ZERO a write to x0 leaves x0
reading 0x0000 (R16). -/
structure WroteReg (s t : State) (rd : Reg) (v p : Word) : Prop where
  dest     : rd ≠ 0 ∨ s.cfg.x0Policy = .ordinary → t.readReg rd = v
  zero     : s.cfg.x0Policy = .hardwiredZero → t.readReg 0 = 0
  others   : ∀ r, r ≠ rd → t.readReg r = s.readReg r
  pc       : t.pc = p
  memory   : ∀ a, t.readByte a = s.readByte a
  image    : t.image = s.image
  storedTo : t.storedTo = s.storedTo
  cfg      : t.cfg = s.cfg

/-- The PC is `p` and nothing else changed. -/
structure Went (s t : State) (p : Word) : Prop where
  registers : ∀ r, t.readReg r = s.readReg r
  pc        : t.pc = p
  memory    : ∀ a, t.readByte a = s.readByte a
  image     : t.image = s.image
  storedTo  : t.storedTo = s.storedTo
  cfg       : t.cfg = s.cfg

/-- A store completed: the PC is the next word's, and beside the stored bytes nothing changed. (`storedTo`, the model's own
record, has its own statement.) -/
structure StoreDone (s t : State) : Prop where
  registers : ∀ r, t.readReg r = s.readReg r
  pc        : t.pc = s.pc + 4
  image     : t.image = s.image
  cfg       : t.cfg = s.cfg

/-! ## Values, by integers -/

/-- R127 and R128: base plus displacement, modulo 2^16. -/
def address (base : Word) (imm : BitVec 11) : Word := BitVec.ofInt 16 ((base.toNat : Int) + imm.toInt)

/-- R136 to R141: where a branch goes. -/
def branchGoes (s : State) (taken : Prop) [Decidable taken] (off : BitVec 13) : Word :=
  if taken then BitVec.ofInt 16 ((s.pc.toNat : Int) + off.toInt) else BitVec.ofNat 16 (s.pc.toNat + 4)

/-- R102: what a set-less-than writes. -/
def setTo (holds : Prop) [Decidable holds] : Word := if holds then 0x0001 else 0x0000

/-- R43: the 16-bit value of the bytes at `a` and `a + 1`. -/
def halfValue (s : State) (a : Word) : Nat :=
  match s.cfg.halfOrder with
  | .little => (s.readByte (a + 1)).toNat * 256 + (s.readByte a).toNat
  | .big => (s.readByte a).toNat * 256 + (s.readByte (a + 1)).toNat

/-- R43: after a 16-bit store of `v` at `a`, its two bytes lie in the order HALF_ORDER says. -/
def HalfLiesAt (t : State) (a v : Word) : Prop :=
  match t.cfg.halfOrder with
  | .little => (t.readByte a).toNat = v.toNat % 256 ∧ (t.readByte (a + 1)).toNat = v.toNat / 256
  | .big => (t.readByte a).toNat = v.toNat / 256 ∧ (t.readByte (a + 1)).toNat = v.toNat % 256

/-- R121. -/
def DivIs (a b v : Word) : Prop :=
  (b = 0 → v = 0xFFFF) ∧ (a = 0x8000 ∧ b = 0xFFFF → v = 0x8000) ∧
  (b ≠ 0 ∧ ¬(a = 0x8000 ∧ b = 0xFFFF) → sint v = (sint a).tdiv (sint b))

/-- R123. -/
def RemIs (a b v : Word) : Prop :=
  (b = 0 → v = a) ∧ (a = 0x8000 ∧ b = 0xFFFF → v = 0) ∧
  (b ≠ 0 ∧ ¬(a = 0x8000 ∧ b = 0xFFFF) → sint v = sint a - sint b * (sint a).tdiv (sint b))

/-- R61: position `i` of the word agrees with position `i` of the pattern (its symbol number `31 - i`). -/
def agreesAt (w : IWord) (p : Pattern) (i : Nat) : Prop :=
  match p[31 - i]? with
  | some .zero => w.getLsbD i = false
  | some .one => w.getLsbD i = true
  | some .x => True
  | none => True

/-- The bytes of the word that a fetch at `pc` reads from data memory, as one number (D15). -/
def wordInMemory (s : State) (order : ByteOrder) : Nat :=
  match order with
  | .little => (s.readByte (s.pc + 3)).toNat * 2 ^ 24 + (s.readByte (s.pc + 2)).toNat * 2 ^ 16 +
      (s.readByte (s.pc + 1)).toNat * 2 ^ 8 + (s.readByte s.pc).toNat
  | .big => (s.readByte s.pc).toNat * 2 ^ 24 + (s.readByte (s.pc + 1)).toNat * 2 ^ 16 +
      (s.readByte (s.pc + 2)).toNat * 2 ^ 8 + (s.readByte (s.pc + 3)).toNat

end Sys2Proof.Claims

open Sys2Proof Sys2Proof.Machine Sys2Proof.Claims

/-! ## Register-register ALU (40_alu_register.md) -/

/-- Derived (RE, D11) from R94 and R95: the words of ADD and SUB decode to them, and each completes with the sum or the
difference modulo 2^16. -/
def Obligations.AddAndSubWrapModulo65536 : Prop :=
  ∀ (s : State) (rd rs1 rs2 : Reg),
    (decode (wordR 0b0000000 0b000 rd rs1 rs2) = some (.add rd rs1 rs2) ∧
      ∃ t, exec (.add rd rs1 rs2) s = .next t ∧
        WroteReg s t rd (BitVec.ofNat 16 (uint (s.readReg rs1) + uint (s.readReg rs2))) (s.pc + 4)) ∧
    (decode (wordR 0b0100000 0b000 rd rs1 rs2) = some (.sub rd rs1 rs2) ∧
      ∃ t, exec (.sub rd rs1 rs2) s = .next t ∧
        WroteReg s t rd (BitVec.ofInt 16 ((uint (s.readReg rs1) : Int) - uint (s.readReg rs2))) (s.pc + 4))

/-- Derived (RE) from R96, R97 and R98: bit i of the result is the operation on bits i of the operands. -/
def Obligations.XorOrAndActBitByBit : Prop :=
  ∀ (s : State) (rd rs1 rs2 : Reg),
    (decode (wordR 0b0000000 0b100 rd rs1 rs2) = some (.xor rd rs1 rs2) ∧
      ∃ t v, exec (.xor rd rs1 rs2) s = .next t ∧ WroteReg s t rd v (s.pc + 4) ∧
        ∀ i, v.getLsbD i = ((s.readReg rs1).getLsbD i ^^ (s.readReg rs2).getLsbD i)) ∧
    (decode (wordR 0b0000000 0b110 rd rs1 rs2) = some (.or rd rs1 rs2) ∧
      ∃ t v, exec (.or rd rs1 rs2) s = .next t ∧ WroteReg s t rd v (s.pc + 4) ∧
        ∀ i, v.getLsbD i = ((s.readReg rs1).getLsbD i || (s.readReg rs2).getLsbD i)) ∧
    (decode (wordR 0b0000000 0b111 rd rs1 rs2) = some (.and rd rs1 rs2) ∧
      ∃ t v, exec (.and rd rs1 rs2) s = .next t ∧ WroteReg s t rd v (s.pc + 4) ∧
        ∀ i, v.getLsbD i = ((s.readReg rs1).getLsbD i && (s.readReg rs2).getLsbD i))

/-- Derived (RE, D11) from R99, R100 and R101: the amount is the rs2 value modulo 16; SRA rounds the signed quotient down. -/
def Obligations.RegisterShiftsUseLowFourBits : Prop :=
  ∀ (s : State) (rd rs1 rs2 : Reg),
    (decode (wordR 0b0000000 0b001 rd rs1 rs2) = some (.sll rd rs1 rs2) ∧
      ∃ t, exec (.sll rd rs1 rs2) s = .next t ∧
        WroteReg s t rd (BitVec.ofNat 16 (uint (s.readReg rs1) * 2 ^ (uint (s.readReg rs2) % 16))) (s.pc + 4)) ∧
    (decode (wordR 0b0000000 0b101 rd rs1 rs2) = some (.srl rd rs1 rs2) ∧
      ∃ t, exec (.srl rd rs1 rs2) s = .next t ∧
        WroteReg s t rd (BitVec.ofNat 16 (uint (s.readReg rs1) / 2 ^ (uint (s.readReg rs2) % 16))) (s.pc + 4)) ∧
    (decode (wordR 0b0100000 0b101 rd rs1 rs2) = some (.sra rd rs1 rs2) ∧
      ∃ t, exec (.sra rd rs1 rs2) s = .next t ∧
        WroteReg s t rd (BitVec.ofInt 16 (sint (s.readReg rs1) / 2 ^ (uint (s.readReg rs2) % 16))) (s.pc + 4))

/-- Derived (RE, D11, D12) from R102 and R103: 0x0001 or 0x0000 by the signed or the unsigned comparison. -/
def Obligations.SetLessThanWritesOneOrZero : Prop :=
  ∀ (s : State) (rd rs1 rs2 : Reg),
    (decode (wordR 0b0000000 0b010 rd rs1 rs2) = some (.slt rd rs1 rs2) ∧
      ∃ t, exec (.slt rd rs1 rs2) s = .next t ∧
        WroteReg s t rd (setTo (sint (s.readReg rs1) < sint (s.readReg rs2))) (s.pc + 4)) ∧
    (decode (wordR 0b0000000 0b011 rd rs1 rs2) = some (.sltu rd rs1 rs2) ∧
      ∃ t, exec (.sltu rd rs1 rs2) s = .next t ∧
        WroteReg s t rd (setTo (uint (s.readReg rs1) < uint (s.readReg rs2))) (s.pc + 4))

/-! ## Register-immediate ALU and LI (41_alu_immediate.md) -/

/-- Derived (RE) from R105 to R108: the 11-bit immediate is sign-extended for ADDI and for the logical operations: bits 15 to
10 of the operand are its bit 10. -/
def Obligations.ImmediateAluSignExtends : Prop :=
  ∀ (s : State) (rd rs1 : Reg) (imm : BitVec 11),
    (decode (wordI 0b000 0b0010011 rd rs1 imm) = some (.addi rd rs1 imm) ∧
      ∃ t, exec (.addi rd rs1 imm) s = .next t ∧
        WroteReg s t rd (BitVec.ofInt 16 ((uint (s.readReg rs1) : Int) + imm.toInt)) (s.pc + 4)) ∧
    (decode (wordI 0b100 0b0010011 rd rs1 imm) = some (.xori rd rs1 imm) ∧
      ∃ t v, exec (.xori rd rs1 imm) s = .next t ∧ WroteReg s t rd v (s.pc + 4) ∧
        ∀ i, i < 16 → v.getLsbD i = ((s.readReg rs1).getLsbD i ^^ imm.getLsbD (min i 10))) ∧
    (decode (wordI 0b110 0b0010011 rd rs1 imm) = some (.ori rd rs1 imm) ∧
      ∃ t v, exec (.ori rd rs1 imm) s = .next t ∧ WroteReg s t rd v (s.pc + 4) ∧
        ∀ i, i < 16 → v.getLsbD i = ((s.readReg rs1).getLsbD i || imm.getLsbD (min i 10))) ∧
    (decode (wordI 0b111 0b0010011 rd rs1 imm) = some (.andi rd rs1 imm) ∧
      ∃ t v, exec (.andi rd rs1 imm) s = .next t ∧ WroteReg s t rd v (s.pc + 4) ∧
        ∀ i, i < 16 → v.getLsbD i = ((s.readReg rs1).getLsbD i && imm.getLsbD (min i 10)))

/-- Derived (RE) from R109, R110 and R111. -/
def Obligations.ImmediateShiftsByShamt : Prop :=
  ∀ (s : State) (rd rs1 : Reg) (shamt : BitVec 4),
    (decode (wordSh 0b00000000 0b001 rd rs1 shamt) = some (.slli rd rs1 shamt) ∧
      ∃ t, exec (.slli rd rs1 shamt) s = .next t ∧
        WroteReg s t rd (BitVec.ofNat 16 (uint (s.readReg rs1) * 2 ^ shamt.toNat)) (s.pc + 4)) ∧
    (decode (wordSh 0b00000000 0b101 rd rs1 shamt) = some (.srli rd rs1 shamt) ∧
      ∃ t, exec (.srli rd rs1 shamt) s = .next t ∧
        WroteReg s t rd (BitVec.ofNat 16 (uint (s.readReg rs1) / 2 ^ shamt.toNat)) (s.pc + 4)) ∧
    (decode (wordSh 0b01000000 0b101 rd rs1 shamt) = some (.srai rd rs1 shamt) ∧
      ∃ t, exec (.srai rd rs1 shamt) s = .next t ∧
        WroteReg s t rd (BitVec.ofInt 16 (sint (s.readReg rs1) / 2 ^ shamt.toNat)) (s.pc + 4))

/-- Derived (RE, D12) from R112 and R113: SLTIU compares with the sign-extended immediate read as unsigned, that is, modulo
2^16. -/
def Obligations.SetLessThanImmediateExtendsFirst : Prop :=
  ∀ (s : State) (rd rs1 : Reg) (imm : BitVec 11),
    (decode (wordI 0b010 0b0010011 rd rs1 imm) = some (.slti rd rs1 imm) ∧
      ∃ t, exec (.slti rd rs1 imm) s = .next t ∧
        WroteReg s t rd (setTo (sint (s.readReg rs1) < imm.toInt)) (s.pc + 4)) ∧
    (decode (wordI 0b011 0b0010011 rd rs1 imm) = some (.sltiu rd rs1 imm) ∧
      ∃ t, exec (.sltiu rd rs1 imm) s = .next t ∧
        WroteReg s t rd (setTo ((uint (s.readReg rs1) : Int) < imm.toInt % 65536)) (s.pc + 4))

/-- Derived (RE) from R114: the raw 16-bit immediate. -/
def Obligations.LiWritesRawImmediate : Prop :=
  ∀ (s : State) (rd : Reg) (imm : BitVec 16),
    decode (wordU 0b0110111 rd imm) = some (.li rd imm) ∧
      ∃ t, exec (.li rd imm) s = .next t ∧ WroteReg s t rd imm (s.pc + 4)

/-! ## Multiply, divide, remainder (42_muldiv.md) -/

/-- Derived (RE, D10, D11) from R117 to R120: the low half, and the high half of each exact product. -/
def Obligations.MultiplyHalvesOfExactProduct : Prop :=
  ∀ (s : State) (rd rs1 rs2 : Reg),
    (decode (wordR 0b0000001 0b000 rd rs1 rs2) = some (.mul rd rs1 rs2) ∧
      ∃ t, exec (.mul rd rs1 rs2) s = .next t ∧
        WroteReg s t rd (BitVec.ofInt 16 (sint (s.readReg rs1) * sint (s.readReg rs2))) (s.pc + 4) ∧
        WroteReg s t rd (BitVec.ofNat 16 (uint (s.readReg rs1) * uint (s.readReg rs2))) (s.pc + 4)) ∧
    (decode (wordR 0b0000001 0b001 rd rs1 rs2) = some (.mulh rd rs1 rs2) ∧
      ∃ t, exec (.mulh rd rs1 rs2) s = .next t ∧
        WroteReg s t rd (BitVec.ofInt 16 (sint (s.readReg rs1) * sint (s.readReg rs2) / 65536)) (s.pc + 4)) ∧
    (decode (wordR 0b0000001 0b010 rd rs1 rs2) = some (.mulhsu rd rs1 rs2) ∧
      ∃ t, exec (.mulhsu rd rs1 rs2) s = .next t ∧
        WroteReg s t rd (BitVec.ofInt 16 (sint (s.readReg rs1) * uint (s.readReg rs2) / 65536)) (s.pc + 4)) ∧
    (decode (wordR 0b0000001 0b011 rd rs1 rs2) = some (.mulhu rd rs1 rs2) ∧
      ∃ t, exec (.mulhu rd rs1 rs2) s = .next t ∧
        WroteReg s t rd (BitVec.ofNat 16 (uint (s.readReg rs1) * uint (s.readReg rs2) / 65536)) (s.pc + 4))

/-- Derived (RE, D9, D11) from R121 and R122: the quotients, the zero divisor and the overflow pair among them. -/
def Obligations.DivideTruncatesAndNeverTraps : Prop :=
  ∀ (s : State) (rd rs1 rs2 : Reg),
    (decode (wordR 0b0000001 0b100 rd rs1 rs2) = some (.div rd rs1 rs2) ∧
      ∃ t v, exec (.div rd rs1 rs2) s = .next t ∧ WroteReg s t rd v (s.pc + 4) ∧ DivIs (s.readReg rs1) (s.readReg rs2) v) ∧
    (decode (wordR 0b0000001 0b101 rd rs1 rs2) = some (.divu rd rs1 rs2) ∧
      ∃ t v, exec (.divu rd rs1 rs2) s = .next t ∧ WroteReg s t rd v (s.pc + 4) ∧
        (s.readReg rs2 = 0 → v = 0xFFFF) ∧ (s.readReg rs2 ≠ 0 → uint v = uint (s.readReg rs1) / uint (s.readReg rs2)))

/-- Derived (RE, D9, D11) from R123 and R124: the remainders, the zero divisor and the overflow pair among them. -/
def Obligations.RemainderOfDividendSign : Prop :=
  ∀ (s : State) (rd rs1 rs2 : Reg),
    (decode (wordR 0b0000001 0b110 rd rs1 rs2) = some (.rem rd rs1 rs2) ∧
      ∃ t v, exec (.rem rd rs1 rs2) s = .next t ∧ WroteReg s t rd v (s.pc + 4) ∧
        RemIs (s.readReg rs1) (s.readReg rs2) v ∧
        (s.readReg rs2 ≠ 0 → sint v = 0 ∨ (sint v < 0 ↔ sint (s.readReg rs1) < 0))) ∧
    (decode (wordR 0b0000001 0b111 rd rs1 rs2) = some (.remu rd rs1 rs2) ∧
      ∃ t v, exec (.remu rd rs1 rs2) s = .next t ∧ WroteReg s t rd v (s.pc + 4) ∧
        (s.readReg rs2 = 0 → v = s.readReg rs1) ∧ (s.readReg rs2 ≠ 0 → uint v = uint (s.readReg rs1) % uint (s.readReg rs2)))

/-- Derived (D9) from R121 to R124, as R125 is: quotient and remainder recombine to the dividend, exactly but for the overflow
pair and a zero divisor, which do so modulo 2^16. -/
def Obligations.QuotientAndRemainderRecombine : Prop :=
  ∀ a b : Word,
    (b ≠ 0 → ¬(a = 0x8000 ∧ b = 0xFFFF) →
      sint a = sint b * sint (divSigned a b) + sint (remSigned a b) ∧
      |sint (remSigned a b)| < |sint b| ∧
      (sint (remSigned a b) = 0 ∨ (sint (remSigned a b) < 0 ↔ sint a < 0))) ∧
    (b ≠ 0 → uint a = uint b * uint (divUnsigned a b) + uint (remUnsigned a b) ∧ uint (remUnsigned a b) < uint b) ∧
    a = b * divSigned a b + remSigned a b ∧
    a = b * divUnsigned a b + remUnsigned a b ∧
    (b = 0 → divSigned a b = 0xFFFF ∧ divUnsigned a b = 0xFFFF ∧ remSigned a b = a ∧ remUnsigned a b = a)

/-! ## Loads and stores (43_load_store.md) -/

/-- Derived (RE) from R129 and R130: the byte at base plus displacement, sign- or zero-extended. -/
def Obligations.ByteLoadsExtend : Prop :=
  ∀ (s : State) (rd rs1 : Reg) (imm : BitVec 11),
    (decode (wordI 0b000 0b0000011 rd rs1 imm) = some (.lb rd rs1 imm) ∧
      ∃ t, exec (.lb rd rs1 imm) s = .next t ∧
        WroteReg s t rd (BitVec.ofInt 16 (s.readByte (address (s.readReg rs1) imm)).toInt) (s.pc + 4)) ∧
    (decode (wordI 0b100 0b0000011 rd rs1 imm) = some (.lbu rd rs1 imm) ∧
      ∃ t, exec (.lbu rd rs1 imm) s = .next t ∧
        WroteReg s t rd (BitVec.ofNat 16 (s.readByte (address (s.readReg rs1) imm)).toNat) (s.pc + 4))

/-- Derived (RE; the stops are log entry 10) from R131 and R46: the halfword at base plus displacement, by HALF_ORDER; at an
odd address (0xFFFF among them) what HALF_MISALIGNED says. -/
def Obligations.LoadWordFollowsOrderAndAlignment : Prop :=
  ∀ (s : State) (rd rs1 : Reg) (imm : BitVec 11),
    decode (wordI 0b010 0b0000011 rd rs1 imm) = some (.lw rd rs1 imm) ∧
    (s.HalfOk (address (s.readReg rs1) imm) →
      ∃ t, exec (.lw rd rs1 imm) s = .next t ∧
        WroteReg s t rd (BitVec.ofNat 16 (halfValue s (address (s.readReg rs1) imm))) (s.pc + 4)) ∧
    ((address (s.readReg rs1) imm).toNat % 2 = 1 → s.cfg.halfMisaligned = .stuck →
      exec (.lw rd rs1 imm) s = .fault (.halfStuck (address (s.readReg rs1) imm))) ∧
    ((address (s.readReg rs1) imm).toNat % 2 = 1 → s.cfg.halfMisaligned = .fault →
      exec (.lw rd rs1 imm) s = .fault (.halfPlatformFault (address (s.readReg rs1) imm)))

/-- Derived (RE) from R132: byte `effectiveAddress` takes the low byte of rs, and no other byte changes. -/
def Obligations.StoreByteWritesOneByte : Prop :=
  ∀ (s : State) (rs base : Reg) (imm : BitVec 11), Memory.wf s.mem = true →
    decode (wordS 0b000 rs base imm) = some (.sb rs base imm) ∧
    effectiveAddress (s.readReg base) imm = address (s.readReg base) imm ∧
    ∃ t, exec (.sb rs base imm) s = .next t ∧ StoreDone s t ∧
      (t.readByte (effectiveAddress (s.readReg base) imm)).toNat = uint (s.readReg rs) % 256 ∧
      ∀ ea, effectiveAddress (s.readReg base) imm = ea → ∀ a, a ≠ ea → t.readByte a = s.readByte a

/-- Derived (RE; the stops are log entry 10) from R133 and R46: bytes `effectiveAddress` and the next take rs by HALF_ORDER,
no other byte changes; at an odd address what HALF_MISALIGNED says. -/
def Obligations.StoreWordFollowsOrderAndAlignment : Prop :=
  ∀ (s : State) (rs base : Reg) (imm : BitVec 11), Memory.wf s.mem = true →
    decode (wordS 0b010 rs base imm) = some (.sw rs base imm) ∧
    effectiveAddress (s.readReg base) imm = address (s.readReg base) imm ∧
    (s.HalfOk (effectiveAddress (s.readReg base) imm) →
      ∃ t, exec (.sw rs base imm) s = .next t ∧ StoreDone s t ∧
        HalfLiesAt t (effectiveAddress (s.readReg base) imm) (s.readReg rs) ∧
        ∀ ea, effectiveAddress (s.readReg base) imm = ea → ∀ a, a ≠ ea → a ≠ ea + 1 → t.readByte a = s.readByte a) ∧
    ((effectiveAddress (s.readReg base) imm).toNat % 2 = 1 → s.cfg.halfMisaligned = .stuck →
      exec (.sw rs base imm) s = .fault (.halfStuck (effectiveAddress (s.readReg base) imm))) ∧
    ((effectiveAddress (s.readReg base) imm).toNat % 2 = 1 → s.cfg.halfMisaligned = .fault →
      exec (.sw rs base imm) s = .fault (.halfPlatformFault (effectiveAddress (s.readReg base) imm)))

/-- Derived from R131 and R133, the source's round-trip property: LW from where SW stored gives the stored value back,
whatever HALF_ORDER is. -/
def Obligations.StoreThenLoadReturnsValue : Prop :=
  ∀ (s t : State) (rs base rd : Reg) (imm : BitVec 11), Memory.wf s.mem = true → exec (.sw rs base imm) s = .next t →
    ∃ u, exec (.lw rd base imm) t = .next u ∧ WroteReg t u rd (s.readReg rs) (t.pc + 4)

/-- Derived (D13; the stop is log entry 10) from R134: source and destination may overlap, and a load to a hard-wired x0 still
performs its read. -/
def Obligations.LoadStoreOverlapReadsFirst : Prop :=
  ∀ (s : State) (r : Reg) (imm : BitVec 11), Memory.wf s.mem = true →
    (∃ t, exec (.lb r r imm) s = .next t ∧
      WroteReg s t r (BitVec.ofInt 16 (s.readByte (address (s.readReg r) imm)).toInt) (s.pc + 4)) ∧
    (∃ t, exec (.lbu r r imm) s = .next t ∧
      WroteReg s t r (BitVec.ofNat 16 (s.readByte (address (s.readReg r) imm)).toNat) (s.pc + 4)) ∧
    (s.HalfOk (address (s.readReg r) imm) →
      ∃ t, exec (.lw r r imm) s = .next t ∧
        WroteReg s t r (BitVec.ofNat 16 (halfValue s (address (s.readReg r) imm))) (s.pc + 4)) ∧
    (∃ t, exec (.sb r r imm) s = .next t ∧ (t.readByte (address (s.readReg r) imm)).toNat = uint (s.readReg r) % 256) ∧
    (s.HalfOk (address (s.readReg r) imm) →
      ∃ t, exec (.sw r r imm) s = .next t ∧ HalfLiesAt t (address (s.readReg r) imm) (s.readReg r)) ∧
    (s.cfg.x0Policy = .hardwiredZero → s.HalfOk (address (s.readReg r) imm) →
      ∃ t, exec (.lw 0 r imm) s = .next t ∧ Went s t (s.pc + 4)) ∧
    (s.cfg.x0Policy = .hardwiredZero → ¬s.HalfOk (address (s.readReg r) imm) → ∃ f, exec (.lw 0 r imm) s = .fault f)

/-- Derived (log entry 9, the model's own record): a store notes exactly the bytes it writes while FETCH_COHERENT is false,
and nothing while it is true. -/
def Obligations.StoresAreNotedWhenIncoherent : Prop :=
  ∀ (i : Instr) (s t : State) (a : Word) (n : Nat), storeOf s i = some (a, n) → exec i s = .next t →
    (s.cfg.fetchCoherent = true → t.storedTo = s.storedTo) ∧
    (s.cfg.fetchCoherent = false → ∀ x, x ∈ t.storedTo ↔ x ∈ s.storedTo ∨ x = a.toNat ∨ n = 2 ∧ x = (a + 1).toNat)

/-! ## Control transfer (44_control_transfer.md) -/

/-- Derived (RE) from R136 and R137. -/
def Obligations.BeqAndBneBranchOnEquality : Prop :=
  ∀ (s : State) (rs1 rs2 : Reg) (off : BitVec 13), evenOffset off = true →
    (decode (wordB 0b000 rs1 rs2 off) = some (.beq rs1 rs2 off) ∧
      ∃ t, exec (.beq rs1 rs2 off) s = .next t ∧ Went s t (branchGoes s (s.readReg rs1 = s.readReg rs2) off)) ∧
    (decode (wordB 0b001 rs1 rs2 off) = some (.bne rs1 rs2 off) ∧
      ∃ t, exec (.bne rs1 rs2 off) s = .next t ∧ Went s t (branchGoes s (s.readReg rs1 ≠ s.readReg rs2) off))

/-- Derived (RE, D11) from R138 and R139. -/
def Obligations.BltAndBgeCompareSigned : Prop :=
  ∀ (s : State) (rs1 rs2 : Reg) (off : BitVec 13), evenOffset off = true →
    (decode (wordB 0b100 rs1 rs2 off) = some (.blt rs1 rs2 off) ∧
      ∃ t, exec (.blt rs1 rs2 off) s = .next t ∧ Went s t (branchGoes s (sint (s.readReg rs1) < sint (s.readReg rs2)) off)) ∧
    (decode (wordB 0b101 rs1 rs2 off) = some (.bge rs1 rs2 off) ∧
      ∃ t, exec (.bge rs1 rs2 off) s = .next t ∧ Went s t (branchGoes s (sint (s.readReg rs1) ≥ sint (s.readReg rs2)) off))

/-- Derived (RE, D11) from R140 and R141. -/
def Obligations.BltuAndBgeuCompareUnsigned : Prop :=
  ∀ (s : State) (rs1 rs2 : Reg) (off : BitVec 13), evenOffset off = true →
    (decode (wordB 0b110 rs1 rs2 off) = some (.bltu rs1 rs2 off) ∧
      ∃ t, exec (.bltu rs1 rs2 off) s = .next t ∧ Went s t (branchGoes s (uint (s.readReg rs1) < uint (s.readReg rs2)) off)) ∧
    (decode (wordB 0b111 rs1 rs2 off) = some (.bgeu rs1 rs2 off) ∧
      ∃ t, exec (.bgeu rs1 rs2 off) s = .next t ∧ Went s t (branchGoes s (uint (s.readReg rs1) ≥ uint (s.readReg rs2)) off))

/-- Derived (RE) from R142: the link, and a target relative to this instruction's own address. -/
def Obligations.JalLinksAndJumpsRelative : Prop :=
  ∀ (s : State) (rd : Reg) (imm : BitVec 16),
    decode (wordU 0b1101111 rd imm) = some (.jal rd imm) ∧
      ∃ t, exec (.jal rd imm) s = .next t ∧
        WroteReg s t rd (BitVec.ofNat 16 (s.pc.toNat + 4)) (BitVec.ofNat 16 (s.pc.toNat + imm.toNat))

/-- Derived (RE, D13, D26) from R143: the target is absolute, from the old rs1 even where rd is rs1, and no bit of it is cleared.
-/
def Obligations.JalrJumpsToOldRegister : Prop :=
  ∀ (s : State) (rd rs1 : Reg) (imm : BitVec 11),
    decode (wordI 0b000 0b1100111 rd rs1 imm) = some (.jalr rd rs1 imm) ∧
      ∃ t, exec (.jalr rd rs1 imm) s = .next t ∧
        WroteReg s t rd (BitVec.ofNat 16 (s.pc.toNat + 4)) (address (s.readReg rs1) imm)

/-! ## Encoding (30_encoding.md) -/

/-- Derived (RE) from R77 to R87: no bit of an instruction is lost in its word. -/
def Obligations.DecodeOfEncodeIsIdentity : Prop :=
  ∀ i : Instr, i.wf = true → decode (encode i) = some i

/-- Derived (RE) from R65, R88 and R89: a word that decodes is the word of the instruction it decodes to, so every instruction
has exactly one word, and every other word is illegal. -/
def Obligations.EncodeOfDecodeIsIdentity : Prop :=
  ∀ (w : IWord) (i : Instr), decode w = some i → i.wf = true ∧ encode i = w

/-- R61: the mask and match form of the matcher is the position-by-position one. -/
def Obligations.MatcherComparesEveryFixedPosition : Prop :=
  ∀ (w : IWord) (p : Pattern), p.length = 32 →
    (Matches w p = true ↔ ∀ i, i < 32 → agreesAt w p i)

/-- R67, for every table that passes start-up: every word that fixes an entry's fixed bits decodes by that entry, to its
mnemonic, no word matches two entries, and the order of the entries does not matter. -/
def Obligations.DecodeTotalExclusiveAndOrderFree : Prop :=
  ∀ e : CheckedEnc, ∀ w : IWord,
    (∀ row ∈ e.val, Matches w row.pattern = true → decodeWith e.val w = some (row.assemble w)) ∧
    (∀ row ∈ e.val, (row.assemble w).mnemonic = row.mnemonic) ∧
    (∀ row ∈ e.val, ∀ other ∈ e.val, Matches w row.pattern = true → Matches w other.pattern = true → row = other) ∧
    (∀ e' : Enc, e'.Perm e.val → decodeWith e' w = decodeWith e.val w)

/-- R60: a table with a pattern of any other length than 32 is refused at start-up, before anything runs; a table that is
accepted is accepted unchanged. -/
def Obligations.StartUpRefusesMalformedTable : Prop :=
  (∀ e : Enc, (∃ row ∈ e, row.pattern.length ≠ 32) → e.startUp = .error .malformedPattern) ∧
  (∀ (e : Enc) (c : CheckedEnc), e.startUp = .ok c → c.val = e)

/-- Derived (RE): start-up accepts RE, a few words written out from the spec's encodings decode to the instructions they stand
for, and four illegal words of R89 decode to none. -/
def Obligations.SampleWordsDecode : Prop :=
  (∃ c, re.startUp = .ok c ∧ c.val = re) ∧
  decode 0x002081B3 = some (.add 3 1 2) ∧ decode 0xBFF08193 = some (.addi 3 1 0x7FF) ∧
  decode 0xFC1F8123 = some (.sb 1 2 0x7FF) ∧ decode 0xFE208CE3 = some (.beq 1 2 0x1FF8) ∧
  decode 0xBCFB81B7 = some (.li 3 0xBEEF) ∧ decode 0x40F0D193 = some (.srai 3 1 15) ∧
  decode 0x0220A1B3 = some (.mulhsu 3 1 2) ∧ decode 0xBFC08067 = some (.jalr 0 1 0x7FC) ∧
  decode 0x00000000 = none ∧ decode 0x40008193 = none ∧ decode 0x02002023 = none ∧ decode 0x01009193 = none

/-- R63: sign extension fills bits 15 to N with bit N-1, by the formula of R63. -/
def Obligations.SignExtensionFormula : Prop :=
  ∀ (n : Nat) (v : BitVec n), 1 ≤ n → n ≤ 16 →
    sext v = (if v.getLsbD (n - 1) then (v.setWidth 16 ||| (0xFFFF#16 <<< n)) else v.setWidth 16) ∧ sint (sext v) = v.toInt

/-- R64: both forms of the arithmetic shift, and its ends. -/
def Obligations.ArithmeticShiftFloors : Prop :=
  ∀ (v : Word) (n : Fin 17),
    asr v n = (v >>> n.val) ||| (if v.getLsbD 15 then (0xFFFF#16 <<< (16 - n.val)) else 0) ∧
    asr v n = BitVec.ofInt 16 (sint v / 2 ^ n.val) ∧
    asr v 16 = (if v.getLsbD 15 then 0xFFFF else 0x0000) ∧ asr v 0 = v ∧
    asr 0x8000 4 = 0xF800 ∧ asr 0x8000 16 = 0xFFFF ∧ asr 0x0010 4 = 0x0001

/-! ## Registers, PC and memory ports (10_state.md, 20_memory.md) -/

/-- Derived from R15, R16 and R19 (10_state.md section 1): what reads after a register write, under both policies. -/
def Obligations.RegisterFileFollowsX0Policy : Prop :=
  ∀ (s : State) (r q : Reg) (v : Word),
    (s.cfg.x0Policy = .hardwiredZero → s.readReg 0 = 0 ∧ s.writeReg 0 v = s) ∧
    (r ≠ 0 ∨ s.cfg.x0Policy = .ordinary → (s.writeReg r v).readReg r = v) ∧
    (q ≠ r → (s.writeReg r v).readReg q = s.readReg q)

/-- R22: PC arithmetic is modulo 2^16, and moving the PC changes nothing else. -/
def Obligations.PcAdvancesModulo65536 : Prop :=
  ∀ (s : State) (d : Word),
    (s.advance d).pc.toNat = (s.pc.toNat + d.toNat) % 65536 ∧ Went s (s.advance d) (s.advance d).pc ∧
    s.advance d = s.writePc (s.pc + d)

/-- Derived from R42, which calls this contract "the spec's reading": a read gives the latest write to that byte, and a write
changes no other byte. -/
def Obligations.ByteReadGivesLatestWrite : Prop :=
  ∀ (s : State) (a b : Word) (v : Byte), Memory.wf s.mem = true →
    (s.writeByte a v).readByte a = v ∧ (b ≠ a → (s.writeByte a v).readByte b = s.readByte b) ∧
    (∀ l : Launch, (State.launch l).readByte a = Memory.read l.initMem a.toNat)

/-- Derived from R43, R44 (which the spec itself derives from R42 and R43) and R42 (which it calls "the spec's reading"; log
entry 13): at an even address, a halfword write leaves its bytes in HALF_ORDER and no other byte changes, a halfword read
joins them so, and mixed widths see those bytes. -/
def Obligations.HalfwordBytesLieInOrder : Prop :=
  ∀ (s : State) (a v : Word) (b : Byte), Memory.wf s.mem = true → a.toNat % 2 = 0 →
    s.readHalf a = .ok (BitVec.ofNat 16 (halfValue s a)) ∧
    (∃ t, s.writeHalf a v = .ok t ∧ t.cfg = s.cfg ∧ HalfLiesAt t a v ∧ t.readHalf a = .ok v ∧
      (∀ c, c ≠ a → c ≠ a + 1 → t.readByte c = s.readByte c) ∧
      (s.cfg.halfOrder = .little →
        (t.writeByte (a + 1) b).readHalf a = .ok (BitVec.ofNat 16 (b.toNat * 256 + v.toNat % 256)) ∧
        (t.writeByte a b).readHalf a = .ok (BitVec.ofNat 16 (v.toNat / 256 * 256 + b.toNat))) ∧
      (s.cfg.halfOrder = .big →
        (t.writeByte a b).readHalf a = .ok (BitVec.ofNat 16 (b.toNat * 256 + v.toNat % 256)) ∧
        (t.writeByte (a + 1) b).readHalf a = .ok (BitVec.ofNat 16 (v.toNat / 256 * 256 + b.toNat))))

/-- Derived (the stops are log entry 10) from R46, and from R42 and R43 for the bytes: what a halfword access at an odd
address does under each value of HALF_MISALIGNED; a byte access has no constraint. -/
def Obligations.MisalignedHalfwordFollowsParameter : Prop :=
  ∀ (s : State) (a v : Word), Memory.wf s.mem = true → a.toNat % 2 = 1 →
    (s.cfg.halfMisaligned = .stuck →
      s.readHalf a = .error (.halfStuck a) ∧ s.writeHalf a v = .error (.halfStuck a)) ∧
    (s.cfg.halfMisaligned = .fault →
      s.readHalf a = .error (.halfPlatformFault a) ∧ s.writeHalf a v = .error (.halfPlatformFault a)) ∧
    (s.cfg.halfMisaligned = .splitWrap →
      s.readHalf a = .ok (BitVec.ofNat 16 (halfValue s a)) ∧
      ∃ t, s.writeHalf a v = .ok t ∧ HalfLiesAt t a v ∧ ∀ c, c ≠ a → c ≠ a + 1 → t.readByte c = s.readByte c) ∧
    (∀ b : Byte, (s.writeByte a b).readByte a = b)

/-! ## Whole-machine rules -/

/-- R18: the registers an instruction that completes may change, and that only the registers it reads decide what it does: two
states that agree on those, on the PC, on memory and on the platform agree on the outcome. -/
def Obligations.InstructionReadsAndWritesAsListed : Prop :=
  ∀ (i : Instr) (s t : State), exec i s = .next t →
    (∀ r, destOf i ≠ some r → t.readReg r = s.readReg r) ∧
    ∀ s' : State, (∀ r ∈ srcsOf i, s'.readReg r = s.readReg r) → s'.pc = s.pc → s'.mem = s.mem → s'.cfg = s.cfg →
      s'.storedTo = s.storedTo → ∃ t', exec i s' = .next t' ∧ t'.pc = t.pc ∧ t'.mem = t.mem ∧ t'.storedTo = t.storedTo ∧
        ∀ r, destOf i = some r → t'.readReg r = t.readReg r

/-- Derived from R21, R135 and R142, and for JALR from R143 with the spec's own D13 (the old rs1) and D26 (no bit cleared)
(log entry 17): where the PC of an instruction that completes can be. -/
def Obligations.PcGoesWhereTheInstructionSays : Prop :=
  ∀ (i : Instr) (s t : State), exec i s = .next t → mayGoTo s i t.pc

/-- Derived from R40 and R42: an instruction that is no store changes no byte of memory, and a store none but the bytes it
stores. -/
def Obligations.OnlyStoresChangeMemory : Prop :=
  ∀ (i : Instr) (s t : State), exec i s = .next t →
    (storeOf s i = none → ∀ a, t.readByte a = s.readByte a) ∧
    (∀ ea, storeOf s i = some (ea, 1) → ∀ a, a ≠ ea → t.readByte a = s.readByte a) ∧
    (∀ ea, storeOf s i = some (ea, 2) → ∀ a, a ≠ ea → a ≠ ea + 1 → t.readByte a = s.readByte a)

/-- Derived from R27 and R54 (log entry 1): no step changes a parameter of the platform or the separate program image. -/
def Obligations.NoStepChangesPlatformOrImage : Prop :=
  ∀ (e : CheckedEnc) (s t : State), stepWith e s = .next t → t.cfg = s.cfg ∧ t.image = s.image

/-- Derived (the stops are log entry 10) from R91, R126 and R151: no handler rejects a word: every instruction completes in
every state, but for LW and SW at an odd address where the platform stops the access (R46, R151), and no instruction is
refused. -/
def Obligations.HandlersNeverReject : Prop :=
  ∀ (i : Instr) (s : State),
    (∃ t, exec i s = .next t) ∨
    ∃ a, ¬s.HalfOk a ∧ (exec i s = .fault (.halfStuck a) ∨ exec i s = .fault (.halfPlatformFault a)) ∧
      ((∃ rd rs1 imm, i = .lw rd rs1 imm ∧ a = address (s.readReg rs1) imm) ∨
       (∃ rs base imm, i = .sw rs base imm ∧ a = address (s.readReg base) imm))

/-- Derived from R30, R65, R148 and R149: a word that matches nothing ends the step in DecodeFail of that word, over any
checked table, and no handler ever answers so; the run loop then ends with the state unchanged. -/
def Obligations.UnmatchedWordIsDecodeFail : Prop :=
  (∀ (e : CheckedEnc) (s : State) (w : IWord), s.fetch = .ok w → decodeWith e.val w = none →
    stepWith e s = .fault (.decodeFail w)) ∧
  (∀ (i : Instr) (s : State) (w : IWord), exec i s ≠ .fault (.decodeFail w)) ∧
  (∀ (s : State) (w : IWord) (stopPc : Word) (n : Nat), s.fetch = .ok w → decode w = none → s.pc ≠ stopPc →
    runLoop stopPc (n + 1) s = .faulted (.decodeFail w) s)

/-- Derived from R30, R65 and R161: when the word at the PC decodes, the step is exec of that instruction at that state, over
any checked table, RE among them; when no word is fetched, the step stops with the fetch's reason. -/
def Obligations.StepRunsDecodedInstruction : Prop :=
  (∀ (e : CheckedEnc) (s : State) (w : IWord) (i : Instr), s.fetch = .ok w → decodeWith e.val w = some i →
    stepWith e s = exec i s ∧ coreStepWith e w s = exec i s) ∧
  (∀ (s : State) (w : IWord) (i : Instr), s.fetch = .ok w → decode w = some i → step s = exec i s) ∧
  (∀ (s : State) (f : Fault), s.fetch = .error f → step s = .fault f)

/-- Derived from R39, R54 and R165 (the two forms of FETCH are log entry 7, the record log entry 9, that only a fetch of a
stored byte stops log entry 18): what the fetch reads. From a coherent data memory it reads the four bytes at the PC as they
are now; from a memory that is not coherent it stops once one of them has been stored to; from the program image it reads the
listed word. -/
def Obligations.FetchReadsItsSource : Prop :=
  ∀ s : State,
    (s.cfg.fetch = .programImage → ∀ w, Image.find s.image s.pc.toNat = some w → s.fetch = .ok w) ∧
    (s.cfg.fetch = .programImage → Image.find s.image s.pc.toNat = none → s.fetch = .error (.noFetchWord s.pc)) ∧
    (∀ order u, s.cfg.fetch = .dataMemory order u → s.pc.toNat % 4 = 0 ∨ u = .bytesAtPc →
      (s.cfg.fetchCoherent = true ∨ (∀ a ∈ fetchAddresses s.pc, a.toNat ∉ s.storedTo) →
        s.fetch = .ok (BitVec.ofNat 32 (wordInMemory s order))) ∧
      (s.cfg.fetchCoherent = false → (∃ a ∈ fetchAddresses s.pc, a.toNat ∈ s.storedTo) →
        s.fetch = .error (.incoherentFetch s.pc))) ∧
    (∀ order, s.cfg.fetch = .dataMemory order .noWord → s.pc.toNat % 4 ≠ 0 → s.fetch = .error (.noFetchWord s.pc))

/-- Derived from R161 (STOP_PC is the harness's, log entry 15): the loop ends at STOP_PC before the fetch, else takes one step
and goes on, else ends with the reason and the state before it. -/
def Obligations.RunLoopStopsBeforeFetch : Prop :=
  ∀ (stopPc : Word) (n : Nat) (s : State),
    (s.pc = stopPc → runLoop stopPc n s = .atStop s) ∧
    (s.pc ≠ stopPc → ∀ t, step s = .next t → runLoop stopPc (n + 1) s = runLoop stopPc n t) ∧
    (s.pc ≠ stopPc → ∀ f, step s = .fault f → runLoop stopPc (n + 1) s = .faulted f s) ∧
    (∀ t, runLoop stopPc n s = .atStop t → t.pc = stopPc)

/-- Derived from R34 and R157 (the record's layout is log entry 14): tracing a step does not change it, and the record names
the instruction that ran and the values before and after. -/
def Obligations.TraceOnlyObserves : Prop :=
  ∀ s : State, (stepTraced s).1 = step s ∧
    ∀ t i, step s = .next t → s.nextInstr = some i → ∃ r, (stepTraced s).2 = some r ∧
      r.mnemonic = mnemonicName i.mnemonic ∧ r.operands = operandText i ∧ r.pcBefore = s.pc ∧ r.pcAfter = t.pc ∧
      r.regsBefore = s.readAll ∧ r.regsAfter = t.readAll

/-! ## Start, invariant, isolation -/

/-- R35, R36 and R37 for every launch: each register reads its INIT_REGS value, but a hard-wired x0 reads 0x0000; the PC is
RESET_PC; memory is INIT_MEM. -/
def Obligations.LaunchTakesItsInputs : Prop :=
  ∀ l : Launch,
    (∀ r : Reg, r ≠ 0 ∨ l.cfg.x0Policy = .ordinary → (State.launch l).readReg r = l.initRegs[r.toNat]'(r.isLt)) ∧
    (l.cfg.x0Policy = .hardwiredZero → (State.launch l).readReg 0 = 0) ∧
    (State.launch l).pc = l.resetPc ∧ (∀ a : Word, (State.launch l).readByte a = Memory.read l.initMem a.toNat) ∧
    (State.launch l).image = l.image ∧ (State.launch l).cfg = l.cfg

/-- Derived (log entries 2 to 5 and 7, DESIGN CHOICE): the reset state meets the invariant, and so does every launch from
canonical data. -/
def Obligations.ResetMeetsInvariant : Prop :=
  StateInv State.reset ∧ ∀ l : Launch, LaunchOk l → StateInv (State.launch l)

/-- Derived from R16, R42 and R54: every step from a state that meets the invariant gives one that does, over any checked
table. -/
def Obligations.StepKeepsInvariant : Prop :=
  ∀ (e : CheckedEnc) (s t : State), StateInv s → stepWith e s = .next t → StateInv t

/-- Derived from R16, R27 and R42: every state a machine can reach meets the invariant, has the parameters and program image
it was launched with (that no step changes them is the model's choice, log entry 1), and shows a hard-wired x0 as 0x0000. -/
def Obligations.ReachableStatesKeepPlatform : Prop :=
  ∀ (l : Launch) (s : State), LaunchOk l → ReachableFrom l s →
    StateInv s ∧ s.cfg = l.cfg ∧ s.image = l.image ∧ (l.cfg.x0Policy = .hardwiredZero → s.readReg 0 = 0)

/-- Derived. The storage slot of a hard-wired x0 is the model's own choice (log entry 12); R16 says only that read(0) gives
0x0000 and write(0, v) has no effect. Under HARDWIRED_ZERO what lies in the slot can never be learned: a step from the state
with any other value there is the same step, slot aside. -/
def Obligations.HardwiredSlotIsNeverSeen : Prop :=
  ∀ (e : CheckedEnc) (s : State) (v : Word), s.cfg.x0Policy = .hardwiredZero →
    stepWith e (s.withSlot0 v) = mapNext (fun t => t.withSlot0 v) (stepWith e s)

/-- Derived (log entry 8): after the loader places a word, the next fetch reads exactly it, and the registers, the PC and
every parameter but the one for an unaligned PC are as before. -/
def Obligations.PlacedWordIsFetched : Prop :=
  ∀ (s : State) (w : IWord), Memory.wf s.mem = true →
    (s.placeWord w).fetch = .ok w ∧ (s.placeWord w).regs = s.regs ∧ (s.placeWord w).pc = s.pc ∧
    (s.pc.toNat % 4 = 0 → (s.placeWord w).cfg = s.cfg)

/-- Derived from R69 and R73 (that start-up refuses a table that breaks them is log entry 16), four of R69's items: in every table
that passes start-up a store reads its base where every load reads rd, some word tells the store's immediate from the load's, no
I-immediate is one contiguous range of the word, and every branch offset is even. R69's widths and its other counts of ranges are
not stated here. -/
def Obligations.AcceptedTableStoreBaseScatterAndEvenOffset : Prop :=
  ∀ e : CheckedEnc, ∀ row ∈ e.val,
    (row.mnemonic.format = .s → ∀ load ∈ e.val, load.mnemonic = .lb ∨ load.mnemonic = .lbu ∨ load.mnemonic = .lw →
      (∀ w, row.rdOf w = load.rdOf w) ∧ ∃ w, row.imm11Of w ≠ load.imm11Of w) ∧
    (row.mnemonic.format = .i → ¬∃ lo : Nat, ∀ w, row.imm11Of w = BitVec.ofNat 11 (w.toNat / 2 ^ lo)) ∧
    (row.mnemonic.format = .b → ∀ w, evenOffset (row.offOf w) = true)
end

