-- ==== Sys2Proof/Laws/State.lean ====
section
/-! SUPPORT. Laws/State.lean: what each field holds after each update of the state, so that no later proof unfolds one. -/

namespace Sys2Proof.Machine

set_option Elab.async false

@[simp] theorem State.writeReg_regs (s : State) (r : Reg) (v : Word) :
    (s.writeReg r v).regs = if s.hardwired r then s.regs else s.regs.set r.toNat v (by have := r.isLt; omega) := rfl
@[simp] theorem State.writeReg_pc (s : State) (r : Reg) (v : Word) :
    (s.writeReg r v).pc = s.pc := rfl
@[simp] theorem State.writeReg_mem (s : State) (r : Reg) (v : Word) :
    (s.writeReg r v).mem = s.mem := rfl
@[simp] theorem State.writeReg_image (s : State) (r : Reg) (v : Word) :
    (s.writeReg r v).image = s.image := rfl
@[simp] theorem State.writeReg_storedTo (s : State) (r : Reg) (v : Word) :
    (s.writeReg r v).storedTo = s.storedTo := rfl
@[simp] theorem State.writeReg_cfg (s : State) (r : Reg) (v : Word) :
    (s.writeReg r v).cfg = s.cfg := rfl

@[simp] theorem State.writePc_regs (s : State) (t : Word) :
    (s.writePc t).regs = s.regs := rfl
@[simp] theorem State.writePc_pc (s : State) (t : Word) :
    (s.writePc t).pc = t := rfl
@[simp] theorem State.writePc_mem (s : State) (t : Word) :
    (s.writePc t).mem = s.mem := rfl
@[simp] theorem State.writePc_image (s : State) (t : Word) :
    (s.writePc t).image = s.image := rfl
@[simp] theorem State.writePc_storedTo (s : State) (t : Word) :
    (s.writePc t).storedTo = s.storedTo := rfl
@[simp] theorem State.writePc_cfg (s : State) (t : Word) :
    (s.writePc t).cfg = s.cfg := rfl

@[simp] theorem State.advance_regs (s : State) (d : Word) :
    (s.advance d).regs = s.regs := rfl
@[simp] theorem State.advance_pc (s : State) (d : Word) :
    (s.advance d).pc = s.pc + d := rfl
@[simp] theorem State.advance_mem (s : State) (d : Word) :
    (s.advance d).mem = s.mem := rfl
@[simp] theorem State.advance_image (s : State) (d : Word) :
    (s.advance d).image = s.image := rfl
@[simp] theorem State.advance_storedTo (s : State) (d : Word) :
    (s.advance d).storedTo = s.storedTo := rfl
@[simp] theorem State.advance_cfg (s : State) (d : Word) :
    (s.advance d).cfg = s.cfg := rfl

@[simp] theorem State.noteStore_regs (s : State) (a : Word) :
    (s.noteStore a).regs = s.regs := rfl
@[simp] theorem State.noteStore_pc (s : State) (a : Word) :
    (s.noteStore a).pc = s.pc := rfl
@[simp] theorem State.noteStore_mem (s : State) (a : Word) :
    (s.noteStore a).mem = s.mem := rfl
@[simp] theorem State.noteStore_image (s : State) (a : Word) :
    (s.noteStore a).image = s.image := rfl
@[simp] theorem State.noteStore_storedTo (s : State) (a : Word) :
    (s.noteStore a).storedTo = if s.cfg.fetchCoherent then s.storedTo else Stored.add s.storedTo a.toNat := rfl
@[simp] theorem State.noteStore_cfg (s : State) (a : Word) :
    (s.noteStore a).cfg = s.cfg := rfl

@[simp] theorem State.writeByte_regs (s : State) (a : Word) (v : Byte) :
    (s.writeByte a v).regs = s.regs := rfl
@[simp] theorem State.writeByte_pc (s : State) (a : Word) (v : Byte) :
    (s.writeByte a v).pc = s.pc := rfl
@[simp] theorem State.writeByte_mem (s : State) (a : Word) (v : Byte) :
    (s.writeByte a v).mem = Memory.write s.mem a.toNat v := rfl
@[simp] theorem State.writeByte_image (s : State) (a : Word) (v : Byte) :
    (s.writeByte a v).image = s.image := rfl
@[simp] theorem State.writeByte_storedTo (s : State) (a : Word) (v : Byte) :
    (s.writeByte a v).storedTo = if s.cfg.fetchCoherent then s.storedTo else Stored.add s.storedTo a.toNat := rfl
@[simp] theorem State.writeByte_cfg (s : State) (a : Word) (v : Byte) :
    (s.writeByte a v).cfg = s.cfg := rfl

@[simp] theorem State.launch_pc (l : Launch) : (State.launch l).pc = l.resetPc := rfl
@[simp] theorem State.launch_mem (l : Launch) : (State.launch l).mem = l.initMem := rfl
@[simp] theorem State.launch_image (l : Launch) : (State.launch l).image = l.image := rfl
@[simp] theorem State.launch_storedTo (l : Launch) : (State.launch l).storedTo = [] := rfl
@[simp] theorem State.launch_cfg (l : Launch) : (State.launch l).cfg = l.cfg := rfl

end Sys2Proof.Machine
end

