-- ==== Sys2Proof/Laws/Memory.lean ====
section
/-! SUPPORT. Laws/Memory.lean: read after write, and that every operation on the machine's lists keeps their canonical form. -/

namespace Sys2Proof.Machine

set_option Elab.async false

/-! ## Data memory -/

theorem Memory.read_cons_self (a : Nat) (v : Byte) (rest : Memory) (h : Memory.read rest a = Memory.unlisted) :
    Memory.read (Memory.cons a v rest) a = v := by
  unfold Memory.cons
  split
  · rw [h]; exact (‹v = Memory.unlisted›).symm
  · simp [Memory.read]

theorem Memory.read_cons_other (a b : Nat) (v : Byte) (rest : Memory) (h : a ≠ b) :
    Memory.read (Memory.cons a v rest) b = Memory.read rest b := by
  unfold Memory.cons
  split
  · rfl
  · simp [Memory.read, h]

/-- An address below every listed one is not listed. -/
theorem Memory.read_below (m : Memory) : ∀ lo a, Memory.wfFrom lo m = true → a < lo → Memory.read m a = Memory.unlisted := by
  induction m with
  | nil => intro lo a _ _; rfl
  | cons c rest ih =>
    intro lo a h ha
    simp only [Memory.wfFrom, Bool.and_eq_true, decide_eq_true_eq] at h
    have hne : c.1 ≠ a := by omega
    simp only [Memory.read, hne, if_false]
    exact ih (c.1 + 1) a h.2 (by omega)

theorem Memory.read_write_other (m : Memory) (a b : Nat) (v : Byte) (h : a ≠ b) :
    Memory.read (Memory.write m a v) b = Memory.read m b := by
  induction m with
  | nil => exact Memory.read_cons_other a b v [] h
  | cons c rest ih =>
    obtain ⟨k, u⟩ := c
    simp only [Memory.write]
    split
    · exact Memory.read_cons_other a b v _ h
    · split
      · subst_vars; rw [Memory.read_cons_other _ b v rest h]; simp [Memory.read, h]
      · simp only [Memory.read, ih]

theorem Memory.read_write_self (m : Memory) : ∀ lo a v, Memory.wfFrom lo m = true →
    Memory.read (Memory.write m a v) a = v := by
  induction m with
  | nil => intro lo a v _; exact Memory.read_cons_self a v [] rfl
  | cons c rest ih =>
    obtain ⟨k, u⟩ := c
    intro lo a v h
    have h0 := h
    simp only [Memory.wfFrom, Bool.and_eq_true, decide_eq_true_eq] at h
    simp only [Memory.write]
    split
    · refine Memory.read_cons_self a v _ (Memory.read_below _ k a ?_ (by omega))
      simp only [Memory.wfFrom, Bool.and_eq_true, decide_eq_true_eq]
      exact ⟨⟨⟨Nat.le_refl k, h.1.1.2⟩, h.1.2⟩, h.2⟩
    · split
      · subst_vars; exact Memory.read_cons_self _ v rest (Memory.read_below _ _ _ h.2 (by omega))
      · rename_i h1 h2
        have : k ≠ a := fun e => h2 e.symm
        simp only [Memory.read, this, if_false]
        exact ih (k + 1) a v h.2

/-- R42: a read gives the latest write to that byte, and a write changes no other byte. -/
theorem Memory.read_write (m : Memory) (h : Memory.wf m = true) (a b : Nat) (v : Byte) :
    Memory.read (Memory.write m a v) b = if a = b then v else Memory.read m b := by
  split
  · subst_vars; exact Memory.read_write_self m 0 _ v h
  · exact Memory.read_write_other m a b v ‹_›

theorem Memory.wfFrom_mono (m : Memory) (lo lo' : Nat) (hl : lo' ≤ lo) (h : Memory.wfFrom lo m = true) :
    Memory.wfFrom lo' m = true := by
  cases m with
  | nil => rfl
  | cons c rest =>
    simp only [Memory.wfFrom, Bool.and_eq_true, decide_eq_true_eq] at h ⊢
    exact ⟨⟨⟨by omega, h.1.1.2⟩, h.1.2⟩, h.2⟩

theorem Memory.wfFrom_cons (lo a : Nat) (v : Byte) (rest : Memory) (hl : lo ≤ a) (ha : a < 65536)
    (h : Memory.wfFrom (a + 1) rest = true) : Memory.wfFrom lo (Memory.cons a v rest) = true := by
  unfold Memory.cons
  split
  · exact Memory.wfFrom_mono rest (a + 1) lo (by omega) h
  · simp only [Memory.wfFrom, Bool.and_eq_true, decide_eq_true_eq, bne_iff_ne, ne_eq]
    exact ⟨⟨⟨hl, ha⟩, ‹_›⟩, h⟩

theorem Memory.wfFrom_write (m : Memory) : ∀ lo a v, lo ≤ a → a < 65536 → Memory.wfFrom lo m = true →
    Memory.wfFrom lo (Memory.write m a v) = true := by
  induction m with
  | nil => intro lo a v hl ha _; exact Memory.wfFrom_cons lo a v [] hl ha rfl
  | cons c rest ih =>
    obtain ⟨k, u⟩ := c
    intro lo a v hl ha h
    simp only [Memory.wfFrom, Bool.and_eq_true, decide_eq_true_eq] at h
    simp only [Memory.write]
    split
    · refine Memory.wfFrom_cons lo a v _ hl ha ?_
      simp only [Memory.wfFrom, Bool.and_eq_true, decide_eq_true_eq]
      exact ⟨⟨⟨by omega, h.1.1.2⟩, h.1.2⟩, h.2⟩
    · split
      · subst_vars; exact Memory.wfFrom_cons lo _ v rest hl ha h.2
      · simp only [Memory.wfFrom, Bool.and_eq_true, decide_eq_true_eq]
        exact ⟨h.1, ih (k + 1) a v (by omega) ha h.2⟩

/-- A write keeps the canonical form. -/
theorem Memory.wf_write (m : Memory) (a : Word) (v : Byte) (h : Memory.wf m = true) :
    Memory.wf (Memory.write m a.toNat v) = true :=
  Memory.wfFrom_write m 0 a.toNat v (by omega) a.isLt h

/-! ## The program image -/

theorem Image.wfFrom_put (m : Image) : ∀ lo a w, lo ≤ a → a < 65536 → Image.wfFrom lo m = true →
    Image.wfFrom lo (Image.put m a w) = true := by
  induction m with
  | nil => intro lo a w hl ha _; simp [Image.put, Image.wfFrom, hl, ha]
  | cons c rest ih =>
    obtain ⟨k, u⟩ := c
    intro lo a w hl ha h
    simp only [Image.wfFrom, Bool.and_eq_true, decide_eq_true_eq] at h
    simp only [Image.put]
    split
    · simp only [Image.wfFrom, Bool.and_eq_true, decide_eq_true_eq]
      exact ⟨⟨hl, ha⟩, ⟨by omega, h.1.2⟩, h.2⟩
    · split
      · subst_vars; simp only [Image.wfFrom, Bool.and_eq_true, decide_eq_true_eq]; exact h
      · simp only [Image.wfFrom, Bool.and_eq_true, decide_eq_true_eq]
        exact ⟨h.1, ih (k + 1) a w (by omega) ha h.2⟩

/-- Loading a word keeps the image's canonical form. -/
theorem Image.wf_put (m : Image) (a : Word) (w : IWord) (h : Image.wf m = true) :
    Image.wf (Image.put m a.toNat w) = true :=
  Image.wfFrom_put m 0 a.toNat w (by omega) a.isLt h

theorem Image.find_put_self (m : Image) (a : Nat) (w : IWord) : Image.find (Image.put m a w) a = some w := by
  induction m with
  | nil => simp [Image.put, Image.find]
  | cons c rest ih =>
    obtain ⟨k, u⟩ := c
    simp only [Image.put]
    split
    · simp [Image.find]
    · split
      · simp [Image.find]
      · rename_i h1 h2
        have : k ≠ a := fun e => h2 e.symm
        simp only [Image.find, this, if_false, ih]

/-! ## The record of stored addresses -/

theorem Stored.wfFrom_add (l : List Nat) : ∀ lo a, lo ≤ a → a < 65536 → Stored.wfFrom lo l = true →
    Stored.wfFrom lo (Stored.add l a) = true := by
  induction l with
  | nil => intro lo a hl ha _; simp [Stored.add, Stored.wfFrom, hl, ha]
  | cons k rest ih =>
    intro lo a hl ha h
    simp only [Stored.wfFrom, Bool.and_eq_true, decide_eq_true_eq] at h
    simp only [Stored.add]
    split
    · simp only [Stored.wfFrom, Bool.and_eq_true, decide_eq_true_eq]
      exact ⟨⟨hl, ha⟩, ⟨by omega, h.1.2⟩, h.2⟩
    · split
      · simp only [Stored.wfFrom, Bool.and_eq_true, decide_eq_true_eq]; exact h
      · simp only [Stored.wfFrom, Bool.and_eq_true, decide_eq_true_eq]
        exact ⟨h.1, ih (k + 1) a (by omega) ha h.2⟩

theorem Stored.wf_add (l : List Nat) (a : Word) (h : Stored.wf l = true) : Stored.wf (Stored.add l a.toNat) = true :=
  Stored.wfFrom_add l 0 a.toNat (by omega) a.isLt h

/-- The record holds an address once it is noted, and loses none. -/
theorem Stored.mem_add (l : List Nat) (a x : Nat) : x ∈ Stored.add l a ↔ x = a ∨ x ∈ l := by
  induction l with
  | nil => simp [Stored.add]
  | cons k rest ih =>
    simp only [Stored.add]
    split
    · simp
    · split
      · subst_vars; simp
      · simp only [List.mem_cons, ih]; tauto

end Sys2Proof.Machine
end

