-- ==== Sys2Proof/Laws/Registers.lean ====
section
/-! SUPPORT. Laws/Registers.lean: the register port: reads after every update, and the hard-wired x0. -/

namespace Sys2Proof.Machine

set_option Elab.async false

theorem State.hardwired_iff (s : State) (r : Reg) :
    s.hardwired r = true ↔ s.cfg.x0Policy = .hardwiredZero ∧ r = 0 := by
  simp [State.hardwired]

@[simp] theorem State.hardwired_writeReg (s : State) (r q : Reg) (v : Word) :
    (s.writeReg r v).hardwired q = s.hardwired q := rfl
@[simp] theorem State.hardwired_writePc (s : State) (t : Word) (q : Reg) : (s.writePc t).hardwired q = s.hardwired q := rfl
@[simp] theorem State.hardwired_advance (s : State) (d : Word) (q : Reg) : (s.advance d).hardwired q = s.hardwired q := rfl
@[simp] theorem State.hardwired_writeByte (s : State) (a : Word) (v : Byte) (q : Reg) :
    (s.writeByte a v).hardwired q = s.hardwired q := rfl

@[simp] theorem State.readReg_writePc (s : State) (t : Word) (r : Reg) : (s.writePc t).readReg r = s.readReg r := rfl
@[simp] theorem State.readReg_advance (s : State) (d : Word) (r : Reg) : (s.advance d).readReg r = s.readReg r := rfl
@[simp] theorem State.readReg_writeByte (s : State) (a : Word) (v : Byte) (r : Reg) :
    (s.writeByte a v).readReg r = s.readReg r := rfl

@[simp] theorem State.readByte_writeReg (s : State) (r : Reg) (v a : Word) :
    (s.writeReg r v).readByte a = s.readByte a := rfl
@[simp] theorem State.readByte_writePc (s : State) (t a : Word) : (s.writePc t).readByte a = s.readByte a := rfl
@[simp] theorem State.readByte_advance (s : State) (d a : Word) : (s.advance d).readByte a = s.readByte a := rfl

/-- R16: a hard-wired index reads 0x0000. -/
theorem State.readReg_hardwired (s : State) (r : Reg) (h : s.hardwired r = true) : s.readReg r = 0 := by
  simp [State.readReg, h]

/-- R15, R16 and R19: the written register reads as written, unless it is hard-wired, and every other reads as before. -/
theorem State.readReg_writeReg (s : State) (r q : Reg) (v : Word) :
    (s.writeReg r v).readReg q = if q = r ∧ s.hardwired r = false then v else s.readReg q := by
  unfold State.readReg
  simp only [State.hardwired_writeReg, State.writeReg_regs]
  by_cases hq : s.hardwired q = true
  · simp only [hq, if_true]
    split
    · rename_i h; rw [h.1] at hq; simp [hq] at h
    · rfl
  · have hq' : s.hardwired q = false := by simpa using hq
    simp only [hq', Bool.false_eq_true, if_false]
    by_cases hqr : q = r
    · subst hqr; simp [hq']
    · have hne : r.toNat ≠ q.toNat := fun e => hqr (BitVec.eq_of_toNat_eq e.symm)
      split
      · simp [hqr]
      · simp [hqr, hne]

/-- The write of one register stays clear of the slot of a hard-wired x0. -/
theorem State.writeReg_slot0 (s : State) (r : Reg) (v : Word) (hp : s.cfg.x0Policy = .hardwiredZero)
    (h : s.regs[0] = 0) : (s.writeReg r v).regs[0] = 0 := by
  simp only [State.writeReg_regs]
  split
  · exact h
  · rename_i hr
    have hr0 : r ≠ 0 := fun e => hr ((State.hardwired_iff s r).2 ⟨hp, e⟩)
    have : r.toNat ≠ 0 := fun e => hr0 (BitVec.eq_of_toNat_eq (by simpa using e))
    simp [this, h]

end Sys2Proof.Machine
end

