-- ==== Sys2Proof/Laws/Ops.lean ====
section
/-! SUPPORT. Laws/Ops.lean: what each shared operation can answer, said once; and `exec_cases`, the whole of what an
instruction can do. -/

namespace Sys2Proof.Machine

set_option Elab.async false

/-! ## The halfword port (R43, R46) -/

theorem getLsbD_zero_eq (a : Word) : a.getLsbD 0 = decide (a.toNat % 2 = 1) := by
  simp [BitVec.getLsbD, Nat.testBit_zero]

theorem State.halfStop_eq_none_iff (s : State) (a : Word) : s.halfStop a = none ↔ s.HalfOk a := by
  unfold State.halfStop State.HalfOk
  rw [getLsbD_zero_eq]
  by_cases h : a.toNat % 2 = 1
  · simp only [h, decide_true, if_true]
    cases hm : s.cfg.halfMisaligned <;> simp
  · simp [show a.toNat % 2 = 0 by omega]

theorem State.halfStop_some (s : State) (a : Word) (f : Fault) (h : s.halfStop a = some f) :
    f = .halfStuck a ∨ f = .halfPlatformFault a := by
  unfold State.halfStop at h
  split at h
  · cases hm : s.cfg.halfMisaligned <;> simp [hm] at h <;> simp [← h]
  · cases h

theorem State.readHalf_ok (s : State) (a : Word) (h : s.HalfOk a) :
    s.readHalf a = .ok (joinHalf s.cfg.halfOrder (s.readByte a) (s.readByte (nextByte a))) := by
  unfold State.readHalf
  rw [(State.halfStop_eq_none_iff s a).2 h]

theorem State.writeHalf_ok (s : State) (a v : Word) (h : s.HalfOk a) :
    s.writeHalf a v =
      .ok ((s.writeByte a (firstByte s.cfg.halfOrder v)).writeByte (nextByte a) (secondByte s.cfg.halfOrder v)) := by
  unfold State.writeHalf
  rw [(State.halfStop_eq_none_iff s a).2 h]

theorem State.readHalf_stop (s : State) (a : Word) (f : Fault) (h : s.halfStop a = some f) : s.readHalf a = .error f := by
  unfold State.readHalf; rw [h]

theorem State.writeHalf_stop (s : State) (a v : Word) (f : Fault) (h : s.halfStop a = some f) :
    s.writeHalf a v = .error f := by
  unfold State.writeHalf; rw [h]

/-! ## Reading back (R42, R43) -/

/-- R42 at the memory port. -/
theorem State.readByte_writeByte (s : State) (h : Memory.wf s.mem = true) (a b : Word) (v : Byte) :
    (s.writeByte a v).readByte b = if b = a then v else s.readByte b := by
  unfold State.readByte
  rw [State.writeByte_mem, Memory.read_write s.mem h]
  by_cases hb : b = a
  · simp [hb]
  · have : a.toNat ≠ b.toNat := fun e => hb (BitVec.eq_of_toNat_eq e.symm)
    simp [hb, this]

theorem nextByte_ne (a : Word) : nextByte a ≠ a := by
  unfold nextByte; bv_omega

/-- R43: the two bytes a halfword write leaves, and every other byte as before. -/
theorem State.readByte_writeHalf (s t : State) (hm : Memory.wf s.mem = true) (a v : Word) (h : s.writeHalf a v = .ok t)
    (b : Word) :
    t.readByte b = if b = nextByte a then secondByte s.cfg.halfOrder v
      else if b = a then firstByte s.cfg.halfOrder v else s.readByte b := by
  have hok : s.HalfOk a := by
    rw [← State.halfStop_eq_none_iff]
    unfold State.writeHalf at h
    cases hs : s.halfStop a with
    | none => rfl
    | some f => simp [hs] at h
  rw [State.writeHalf_ok s a v hok] at h
  cases h
  rw [State.readByte_writeByte _ (by simpa using Memory.wf_write _ _ _ hm), State.readByte_writeByte _ hm]

theorem toNat_append {n m : Nat} (x : BitVec n) (y : BitVec m) : (x ++ y).toNat = x.toNat * 2 ^ m + y.toNat := by
  rw [BitVec.toNat_append, ← Nat.shiftLeft_add_eq_or_of_lt y.isLt, Nat.shiftLeft_eq]

/-- R43: the byte order cancels out. -/
theorem joinHalf_bytes (order : ByteOrder) (v : Word) : joinHalf order (firstByte order v) (secondByte order v) = v := by
  apply BitVec.eq_of_toNat_eq
  have := v.isLt
  cases order <;> simp only [joinHalf, firstByte, secondByte] <;> erw [toNat_append] <;>
    simp only [BitVec.extractLsb'_toNat, Nat.shiftRight_eq_div_pow] <;> omega

/-! ## What an instruction can do -/

/-- What an instruction that completes has done to the state. -/
inductive Effect (i : Instr) (s : State) : State → Prop where
  /-- It wrote its destination and went to some PC. -/
  | wrote (rd : Reg) (v t : Word) (hd : destOf i = some rd) (hs : storeOf s i = none) :
      Effect i s ((s.writeReg rd v).writePc t)
  /-- It stored one byte and went to the next word. -/
  | storedByte (a : Word) (v : Byte) (hd : destOf i = none) (hs : storeOf s i = some (a, 1)) :
      Effect i s ((s.writeByte a v).advance 4)
  /-- It stored two bytes and went to the next word. -/
  | storedHalf (a v : Word) (u : State) (hd : destOf i = none) (hs : storeOf s i = some (a, 2))
      (hw : s.writeHalf a v = .ok u) : Effect i s (u.advance 4)
  /-- It went to some PC. -/
  | jumped (t : Word) (hd : destOf i = none) (hs : storeOf s i = none) : Effect i s (s.writePc t)

theorem opRegReg_eq (f : Word → Word → Word) (rd rs1 rs2 : Reg) (s : State) :
    opRegReg f rd rs1 rs2 s = .next ((s.writeReg rd (f (s.readReg rs1) (s.readReg rs2))).writePc (s.pc + 4)) := rfl

theorem opRegImm_eq (f : Word → Word → Word) (rd rs1 : Reg) (imm : BitVec 11) (s : State) :
    opRegImm f rd rs1 imm s = .next ((s.writeReg rd (f (s.readReg rs1) (sext imm))).writePc (s.pc + 4)) := rfl

theorem opRegShamt_eq (f : Word → Fin 16 → Word) (rd rs1 : Reg) (shamt : BitVec 4) (s : State) :
    opRegShamt f rd rs1 shamt s = .next ((s.writeReg rd (f (s.readReg rs1) (shiftOfImm shamt))).writePc (s.pc + 4)) := rfl

theorem loadByte_eq (ext : Byte → Word) (rd rs1 : Reg) (imm : BitVec 11) (s : State) :
    loadByte ext rd rs1 imm s =
      .next ((s.writeReg rd (ext (s.readByte (effectiveAddress (s.readReg rs1) imm)))).writePc (s.pc + 4)) := rfl

theorem storeByte_eq (rs base : Reg) (imm : BitVec 11) (s : State) :
    storeByte rs base imm s =
      .next ((s.writeByte (effectiveAddress (s.readReg base) imm) ((s.readReg rs).extractLsb' 0 8)).advance 4) := rfl

theorem linkAndJump_eq (rd : Reg) (target : Word) (s : State) :
    linkAndJump rd target s = .next ((s.writeReg rd (linkOf s.pc)).writePc target) := rfl

theorem branchOn_eq (rel : Word → Word → Bool) (rs1 rs2 : Reg) (off : BitVec 13) (s : State) :
    branchOn rel rs1 rs2 off s =
      .next (s.writePc (if rel (s.readReg rs1) (s.readReg rs2) then branchTarget s.pc off else s.pc + 4)) := by
  unfold branchOn State.advance
  split <;> rfl

theorem loadHalf_ok (rd rs1 : Reg) (imm : BitVec 11) (s : State) (h : s.HalfOk (effectiveAddress (s.readReg rs1) imm)) :
    loadHalf rd rs1 imm s =
      .next ((s.writeReg rd (joinHalf s.cfg.halfOrder (s.readByte (effectiveAddress (s.readReg rs1) imm))
        (s.readByte (nextByte (effectiveAddress (s.readReg rs1) imm))))).writePc (s.pc + 4)) := by
  unfold loadHalf
  rw [State.readHalf_ok s _ h]
  rfl

theorem loadHalf_next (rd rs1 : Reg) (imm : BitVec 11) (s t : State) (h : loadHalf rd rs1 imm s = .next t) :
    ∃ v, t = (s.writeReg rd v).writePc (s.pc + 4) := by
  unfold loadHalf at h
  split at h
  · cases h
  · rename_i v _
    exact ⟨v, by cases h; rfl⟩

theorem storeHalf_next (rs base : Reg) (imm : BitVec 11) (s t : State) (h : storeHalf rs base imm s = .next t) :
    ∃ u, s.writeHalf (effectiveAddress (s.readReg base) imm) (s.readReg rs) = .ok u ∧ t = u.advance 4 := by
  unfold storeHalf at h
  split at h
  · cases h
  · rename_i u hu
    exact ⟨u, hu, by cases h; rfl⟩

/-- Everything an instruction that completes can have done (R18, R21, R40). -/
theorem exec_cases (i : Instr) (s t : State) (h : exec i s = .next t) : Effect i s t := by
  cases i with
  | lw rd rs1 imm =>
    obtain ⟨v, rfl⟩ := loadHalf_next rd rs1 imm s t h
    exact .wrote rd v _ rfl rfl
  | sw rs base imm =>
    obtain ⟨u, hu, rfl⟩ := storeHalf_next rs base imm s t h
    exact .storedHalf _ _ u rfl rfl hu
  | sb rs base imm => cases h; exact .storedByte _ _ rfl rfl
  | beq rs1 rs2 off => rw [exec, execBeq, branchOn_eq] at h; cases h; exact .jumped _ rfl rfl
  | bne rs1 rs2 off => rw [exec, execBne, branchOn_eq] at h; cases h; exact .jumped _ rfl rfl
  | blt rs1 rs2 off => rw [exec, execBlt, branchOn_eq] at h; cases h; exact .jumped _ rfl rfl
  | bge rs1 rs2 off => rw [exec, execBge, branchOn_eq] at h; cases h; exact .jumped _ rfl rfl
  | bltu rs1 rs2 off => rw [exec, execBltu, branchOn_eq] at h; cases h; exact .jumped _ rfl rfl
  | bgeu rs1 rs2 off => rw [exec, execBgeu, branchOn_eq] at h; cases h; exact .jumped _ rfl rfl
  | lb rd _ _ | lbu rd _ _ | add rd _ _ | sub rd _ _ | xor rd _ _ | or rd _ _ | and rd _ _ | sll rd _ _ | srl rd _ _
  | sra rd _ _ | slt rd _ _ | sltu rd _ _ | mul rd _ _ | mulh rd _ _ | mulhsu rd _ _ | mulhu rd _ _ | div rd _ _
  | divu rd _ _ | rem rd _ _ | remu rd _ _ | addi rd _ _ | xori rd _ _ | ori rd _ _ | andi rd _ _ | slli rd _ _
  | srli rd _ _ | srai rd _ _ | slti rd _ _ | sltiu rd _ _ | li rd _ | jal rd _ | jalr rd _ _ =>
    cases h; exact .wrote rd _ _ rfl rfl

end Sys2Proof.Machine
end

