-- ==== Sys2Proof/Laws/Decode.lean ====
section
/-! SUPPORT. Laws/Decode.lean: in an exclusive table the row that matches is the row that decodes (R67); a word's bits as
arithmetic, so that matching and extraction of an assembled word are facts about numbers. -/

namespace Sys2Proof

set_option Elab.async false

theorem BitVec32.and_and_xor_eq_zero (w m n : IWord) (a b : IWord) (ha : w &&& m = a) (hb : w &&& n = b) :
    (a ^^^ b) &&& m &&& n = 0 := by
  subst ha hb
  apply BitVec.eq_of_getLsbD_eq
  intro i _
  simp only [BitVec.getLsbD_and, BitVec.getLsbD_xor]
  cases w.getLsbD i <;> cases m.getLsbD i <;> cases n.getLsbD i <;> simp

/-- R67: patterns that differ on a bit both fix share no word. -/
theorem Pattern.not_both_match (p q : Pattern) (h : p.disjoint q = true) (w : IWord) (hp : Matches w p = true) :
    Matches w q = false := by
  by_contra hq
  have hq : Matches w q = true := by simpa using hq
  simp only [Matches, beq_iff_eq] at hp hq
  have := BitVec32.and_and_xor_eq_zero w p.mask q.mask p.value q.value hp hq
  simp [Pattern.disjoint, this] at h

/-- R67: in an exclusive table, the row whose pattern matches is the one the scan finds. -/
theorem Enc.find_of_matches (e : Enc) (h : e.exclusive = true) (row : EncRow) (hm : row ∈ e) (w : IWord)
    (hw : Matches w row.pattern = true) : e.find? (fun r => Matches w r.pattern) = some row := by
  induction e with
  | nil => cases hm
  | cons r rest ih =>
    simp only [Enc.exclusive, Bool.and_eq_true, List.all_eq_true] at h
    rcases List.mem_cons.1 hm with rfl | hm'
    · simp [List.find?, hw]
    · have hr : Matches w r.pattern = false := by
        by_contra hc
        have := Pattern.not_both_match r.pattern row.pattern (h.1 row hm') w (by simpa using hc)
        rw [hw] at this; cases this
      simp only [List.find?, hr]
      exact ih h.2 hm'

/-- R65 and R67 for an exclusive table. -/
theorem decodeWith_of_matches (e : Enc) (h : e.exclusive = true) (row : EncRow) (hm : row ∈ e) (w : IWord)
    (hw : Matches w row.pattern = true) : decodeWith e w = some (row.assemble w) := by
  unfold decodeWith
  rw [Enc.find_of_matches e h row hm w hw]
  rfl

/-- R65: what decodes was assembled by a row that matches. -/
theorem decodeWith_some (e : Enc) (w : IWord) (i : Instr) (h : decodeWith e w = some i) :
    ∃ row ∈ e, Matches w row.pattern = true ∧ i = row.assemble w := by
  simp only [decodeWith, Option.map_eq_some_iff] at h
  obtain ⟨row, hf, rfl⟩ := h
  exact ⟨row, List.mem_of_find?_eq_some hf, by simpa using List.find?_some hf, rfl⟩

theorem re_exclusive : re.exclusive = true := by decide +kernel

/-- R60, R66, R67 and R69: what a table that passes start-up is known to meet. -/
theorem Enc.firstError_eq_none (e : Enc) (h : e.firstError = none) :
    e.patternsWellFormed = true ∧ e.oneEntryEach = true ∧ e.exclusive = true ∧ (∀ row ∈ e, row.fieldsOk = true) ∧
      e.storesOk = true := by
  unfold Enc.firstError at h
  split_ifs at h with h1 h2 h3 h4 h5
  simp only [Bool.not_eq_true', Bool.not_eq_false, List.all_eq_true] at h1 h2 h3 h4 h5
  exact ⟨h1, h2, h3, h4, h5⟩

/-! ## An assembled word as a number -/

open Sys2Proof.Machine (toNat_append)

theorem encodeR_toNat (f7 : BitVec 7) (f3 : BitVec 3) (rd rs1 rs2 : Reg) :
    (encodeR f7 f3 rd rs1 rs2).toNat =
      f7.toNat * 2 ^ 25 + rs2.toNat * 2 ^ 20 + rs1.toNat * 2 ^ 15 + f3.toNat * 2 ^ 12 + rd.toNat * 2 ^ 7 + 0b0110011 := by
  unfold encodeR
  iterate 5 erw [toNat_append]
  simp only [BitVec.toNat_ofNat]
  omega

theorem encodeI_toNat (f3 : BitVec 3) (op : BitVec 7) (rd rs1 : Reg) (imm : BitVec 11) :
    (encodeI f3 op rd rs1 imm).toNat =
      imm.toNat / 2 ^ 10 * 2 ^ 31 + imm.toNat % 2 ^ 10 * 2 ^ 20 + rs1.toNat * 2 ^ 15 + f3.toNat * 2 ^ 12 +
        rd.toNat * 2 ^ 7 + op.toNat := by
  unfold encodeI
  iterate 6 erw [toNat_append]
  have := imm.isLt
  simp only [BitVec.extractLsb'_toNat, Nat.shiftRight_eq_div_pow, BitVec.toNat_ofNat]
  omega

theorem encodeSh_toNat (top : BitVec 8) (f3 : BitVec 3) (rd rs1 : Reg) (shamt : BitVec 4) :
    (encodeSh top f3 rd rs1 shamt).toNat =
      top.toNat * 2 ^ 24 + shamt.toNat * 2 ^ 20 + rs1.toNat * 2 ^ 15 + f3.toNat * 2 ^ 12 + rd.toNat * 2 ^ 7 + 0b0010011 := by
  unfold encodeSh
  iterate 5 erw [toNat_append]
  simp only [BitVec.toNat_ofNat]
  omega

theorem encodeS_toNat (f3 : BitVec 3) (rs base : Reg) (imm : BitVec 11) :
    (encodeS f3 rs base imm).toNat =
      imm.toNat / 2 ^ 5 * 2 ^ 26 + rs.toNat * 2 ^ 20 + imm.toNat % 2 ^ 5 * 2 ^ 15 + f3.toNat * 2 ^ 12 +
        base.toNat * 2 ^ 7 + 0b0100011 := by
  unfold encodeS
  iterate 6 erw [toNat_append]
  have := imm.isLt
  simp only [BitVec.extractLsb'_toNat, Nat.shiftRight_eq_div_pow, BitVec.toNat_ofNat]
  omega

theorem encodeB_toNat (f3 : BitVec 3) (rs1 rs2 : Reg) (off : BitVec 13) :
    (encodeB f3 rs1 rs2 off).toNat =
      off.toNat / 2 ^ 12 * 2 ^ 31 + off.toNat / 2 ^ 5 % 2 ^ 6 * 2 ^ 25 + rs2.toNat * 2 ^ 20 + rs1.toNat * 2 ^ 15 +
        f3.toNat * 2 ^ 12 + off.toNat / 2 % 2 ^ 4 * 2 ^ 8 + off.toNat / 2 ^ 11 % 2 * 2 ^ 7 + 0b1100011 := by
  unfold encodeB
  iterate 7 erw [toNat_append]
  have := off.isLt
  simp only [BitVec.extractLsb'_toNat, Nat.shiftRight_eq_div_pow, BitVec.toNat_ofNat]
  omega

theorem encodeU_toNat (op : BitVec 7) (rd : Reg) (imm : BitVec 16) :
    (encodeU op rd imm).toNat =
      imm.toNat / 2 ^ 10 * 2 ^ 26 + imm.toNat % 2 ^ 5 * 2 ^ 20 + imm.toNat / 2 ^ 5 % 2 ^ 5 * 2 ^ 15 + rd.toNat * 2 ^ 7 +
        op.toNat := by
  unfold encodeU
  iterate 6 erw [toNat_append]
  have := imm.isLt
  simp only [BitVec.extractLsb'_toNat, Nat.shiftRight_eq_div_pow, BitVec.toNat_ofNat]
  omega

end Sys2Proof
end

