-- ==== Sys2Proof/Laws/Fields.lean ====
section
/-! SUPPORT. Laws/Fields.lean: what each row of RE extracts from a word its format's encoder wrote: the operands, unchanged. -/

namespace Sys2Proof

set_option Elab.async false

/-- R77: the operands of a format R word. -/
theorem fieldsR (m : Mnemonic) (f7 : BitVec 7) (f3 : BitVec 3) (rd rs1 rs2 : Reg) :
    (reRowR m f7.toNat f3.toNat).rdOf (encodeR f7 f3 rd rs1 rs2) = rd ∧
    (reRowR m f7.toNat f3.toNat).rs1Of (encodeR f7 f3 rd rs1 rs2) = rs1 ∧
    (reRowR m f7.toNat f3.toNat).rs2Of (encodeR f7 f3 rd rs1 rs2) = rs2 := by
  have h1 := f7.isLt; have h2 := f3.isLt; have h3 := rd.isLt; have h4 := rs1.isLt; have h5 := rs2.isLt
  refine ⟨?_, ?_, ?_⟩ <;> apply BitVec.eq_of_toNat_eq <;>
    simp only [EncRow.rdOf, EncRow.rs1Of, EncRow.rs2Of, reRowR, reRd, reRs1, reRs2, field, gather, extractBits, BitRange.width, encodeR_toNat, BitVec.toNat_ofNat] <;> omega

/-- R78. -/
theorem fieldsI (m : Mnemonic) (f3 : BitVec 3) (op : BitVec 7) (rd rs1 : Reg) (imm : BitVec 11) :
    (reRowI m f3.toNat op.toNat).rdOf (encodeI f3 op rd rs1 imm) = rd ∧
    (reRowI m f3.toNat op.toNat).rs1Of (encodeI f3 op rd rs1 imm) = rs1 ∧
    (reRowI m f3.toNat op.toNat).imm11Of (encodeI f3 op rd rs1 imm) = imm := by
  have h1 := op.isLt; have h2 := f3.isLt; have h3 := rd.isLt; have h4 := rs1.isLt; have h5 := imm.isLt
  refine ⟨?_, ?_, ?_⟩ <;> apply BitVec.eq_of_toNat_eq <;>
    simp only [EncRow.rdOf, EncRow.rs1Of, EncRow.imm11Of, reRowI, reRd, reRs1, field, gather, extractBits, BitRange.width, encodeI_toNat, BitVec.toNat_ofNat] <;> omega

/-- R79. -/
theorem fieldsSh (m : Mnemonic) (top : BitVec 8) (f3 : BitVec 3) (rd rs1 : Reg) (shamt : BitVec 4) :
    (reRowSh m top.toNat f3.toNat).rdOf (encodeSh top f3 rd rs1 shamt) = rd ∧
    (reRowSh m top.toNat f3.toNat).rs1Of (encodeSh top f3 rd rs1 shamt) = rs1 ∧
    (reRowSh m top.toNat f3.toNat).shamtOf (encodeSh top f3 rd rs1 shamt) = shamt := by
  have h1 := top.isLt; have h2 := f3.isLt; have h3 := rd.isLt; have h4 := rs1.isLt; have h5 := shamt.isLt
  refine ⟨?_, ?_, ?_⟩ <;> apply BitVec.eq_of_toNat_eq <;>
    simp only [EncRow.rdOf, EncRow.rs1Of, EncRow.shamtOf, reRowSh, reRd, reRs1, field, gather, extractBits, BitRange.width, encodeSh_toNat, BitVec.toNat_ofNat] <;> omega

/-- R80. -/
theorem fieldsS (m : Mnemonic) (f3 : BitVec 3) (rs base : Reg) (imm : BitVec 11) :
    (reRowS m f3.toNat).rs2Of (encodeS f3 rs base imm) = rs ∧
    (reRowS m f3.toNat).rdOf (encodeS f3 rs base imm) = base ∧
    (reRowS m f3.toNat).imm11Of (encodeS f3 rs base imm) = imm := by
  have h2 := f3.isLt; have h3 := rs.isLt; have h4 := base.isLt; have h5 := imm.isLt
  refine ⟨?_, ?_, ?_⟩ <;> apply BitVec.eq_of_toNat_eq <;>
    simp only [EncRow.rdOf, EncRow.rs2Of, EncRow.imm11Of, reRowS, reRd, reRs2, field, gather, extractBits, BitRange.width, encodeS_toNat, BitVec.toNat_ofNat] <;> omega

/-- R82. -/
theorem fieldsU (m : Mnemonic) (op : BitVec 7) (rd : Reg) (imm : BitVec 16) :
    (reRowU m op.toNat).rdOf (encodeU op rd imm) = rd ∧
    (reRowU m op.toNat).imm16Of (encodeU op rd imm) = imm := by
  have h1 := op.isLt; have h2 := rd.isLt; have h3 := imm.isLt
  have h5 : imm.toNat / 1024 < 64 := by omega
  have h6 : imm.toNat % 32 < 32 := Nat.mod_lt _ (by decide)
  have h7 : imm.toNat / 32 % 32 < 32 := Nat.mod_lt _ (by decide)
  have h8 : imm.toNat = (imm.toNat / 1024 * 32 + imm.toNat / 32 % 32) * 32 + imm.toNat % 32 := by omega
  have hw := encodeU_toNat op rd imm
  simp only [Nat.reducePow] at hw h1 h2 h3
  refine ⟨?_, ?_⟩ <;> apply BitVec.eq_of_toNat_eq <;>
     simp only [EncRow.rdOf, EncRow.imm16Of, reRowU, reRd, field, gather, extractBits, BitRange.width, BitVec.toNat_ofNat,
      Nat.reduceSub, Nat.reducePow, Nat.reduceAdd, Nat.zero_mul, Nat.zero_add] <;>
    generalize (encodeU op rd imm).toNat = w at *
  · generalize imm.toNat / 1024 = i10, imm.toNat % 32 = i0, imm.toNat / 32 % 32 = i5 at *
    omega
  · rw [h8]
    generalize imm.toNat / 1024 = i10, imm.toNat % 32 = i0, imm.toNat / 32 % 32 = i5 at *
    have q26 : w / 67108864 = i10 := by omega
    have e26 : w / 67108864 % 64 = i10 := by rw [q26]; omega
    have q15 : w / 32768 = i10 * 2048 + i0 * 32 + i5 := by omega
    have e15 : w / 32768 % 32 = i5 := by rw [q15]; omega
    have q20 : w / 1048576 = i10 * 64 + i0 := by omega
    have e20 : w / 1048576 % 32 = i0 := by rw [q20]; omega
    rw [e26, e15, e20]
    omega

/-- R81. -/
theorem fieldsB (m : Mnemonic) (f3 : BitVec 3) (rs1 rs2 : Reg) (off : BitVec 13) (he : evenOffset off = true) :
    (reRowB m f3.toNat).rs1Of (encodeB f3 rs1 rs2 off) = rs1 ∧
    (reRowB m f3.toNat).rs2Of (encodeB f3 rs1 rs2 off) = rs2 ∧
    (reRowB m f3.toNat).offOf (encodeB f3 rs1 rs2 off) = off := by
  have h2 := f3.isLt; have h3 := rs1.isLt; have h4 := rs2.isLt
  have he' : off.toNat % 2 = 0 := by
    simp [evenOffset, BitVec.getLsbD, Nat.testBit_zero] at he; omega
  have h5 : off.toNat / 4096 < 2 := by have := off.isLt; omega
  have h6 : off.toNat / 32 % 64 < 64 := Nat.mod_lt _ (by decide)
  have h7 : off.toNat / 2 % 16 < 16 := Nat.mod_lt _ (by decide)
  have h8 : off.toNat / 2048 % 2 < 2 := Nat.mod_lt _ (by decide)
  have h9 : off.toNat = 2 * (((off.toNat / 4096 * 2 + off.toNat / 2048 % 2) * 64 + off.toNat / 32 % 64) * 16 +
      off.toNat / 2 % 16) := by omega
  have hw := encodeB_toNat f3 rs1 rs2 off
  simp only [Nat.reducePow] at hw h2 h3 h4
  refine ⟨?_, ?_, ?_⟩ <;> apply BitVec.eq_of_toNat_eq <;>
     simp only [EncRow.rs1Of, EncRow.rs2Of, EncRow.offOf, reRowB, reRs1, reRs2, field, gather, extractBits, BitRange.width,
      BitVec.toNat_ofNat, Nat.reduceSub, Nat.reducePow, Nat.reduceAdd, Nat.zero_mul, Nat.zero_add] <;>
    generalize (encodeB f3 rs1 rs2 off).toNat = w at *
  · generalize off.toNat / 4096 = o12, off.toNat / 32 % 64 = o5, off.toNat / 2 % 16 = o1, off.toNat / 2048 % 2 = o11 at *
    have q15 : w / 32768 = o12 * 65536 + o5 * 1024 + rs2.toNat * 32 + rs1.toNat := by omega
    have e15 : w / 32768 % 32 = rs1.toNat := by rw [q15]; omega
    rw [e15]; omega
  · generalize off.toNat / 4096 = o12, off.toNat / 32 % 64 = o5, off.toNat / 2 % 16 = o1, off.toNat / 2048 % 2 = o11 at *
    have q20 : w / 1048576 = o12 * 2048 + o5 * 32 + rs2.toNat := by omega
    have e20 : w / 1048576 % 32 = rs2.toNat := by rw [q20]; omega
    rw [e20]; omega
  · rw [h9]
    generalize off.toNat / 4096 = o12, off.toNat / 32 % 64 = o5, off.toNat / 2 % 16 = o1, off.toNat / 2048 % 2 = o11 at *
    have q31 : w / 2147483648 = o12 := by omega
    have e31 : w / 2147483648 % 2 = o12 := by rw [q31]; omega
    have q7 : w / 128 = o12 * 16777216 + o5 * 262144 + rs2.toNat * 8192 + rs1.toNat * 256 + f3.toNat * 32 + o1 * 2 + o11 := by omega
    have e7 : w / 128 % 2 = o11 := by rw [q7]; omega
    have q25 : w / 33554432 = o12 * 64 + o5 := by omega
    have e25 : w / 33554432 % 64 = o5 := by rw [q25]; omega
    have q8 : w / 256 = o12 * 8388608 + o5 * 131072 + rs2.toNat * 4096 + rs1.toNat * 128 + f3.toNat * 16 + o1 := by omega
    have e8 : w / 256 % 16 = o1 := by rw [q8]; omega
    rw [e31, e7, e25, e8]
    omega

end Sys2Proof
end

