-- ==== Sys2Proof/Laws/Layout.lean ====
section
/-! SUPPORT. Laws/Layout.lean: what a field holds depends on its bit positions alone, bit by bit (R62, R69). -/

namespace Sys2Proof

set_option Elab.async false

/-- The number of the bits at the listed positions, the first in the high bit. -/
def bitsValue (w : IWord) (ps : List Nat) (acc : Nat) : Nat := ps.foldl (fun a p => 2 * a + (w.getLsbD p).toNat) acc

theorem bitsValue_append (w : IWord) (ps qs : List Nat) (acc : Nat) :
    bitsValue w (ps ++ qs) acc = bitsValue w qs (bitsValue w ps acc) := List.foldl_append

theorem bitsValue_range (w : IWord) (lo : Nat) : ∀ n acc,
    bitsValue w (List.range' lo n).reverse acc = acc * 2 ^ n + w.toNat / 2 ^ lo % 2 ^ n := by
  intro n
  induction n with
  | zero => intro acc; simp [bitsValue, Nat.mod_one]
  | succ n ih =>
    intro acc
    rw [List.range'_concat, List.reverse_append, List.reverse_singleton, bitsValue_append, ih]
    have hb : (w.getLsbD (lo + 1 * n)).toNat = w.toNat / 2 ^ lo / 2 ^ n % 2 := by
      rw [BitVec.getLsbD, Nat.testBit_eq_decide_div_mod_eq, Nat.div_div_eq_div_mul, ← Nat.pow_add, Nat.one_mul]
      rcases Nat.mod_two_eq_zero_or_one (w.toNat / 2 ^ (lo + n)) with h | h <;> simp [h]
    simp only [bitsValue, List.foldl_cons, List.foldl_nil, hb]
    rw [Nat.pow_succ, Nat.mod_mul (a := 2 ^ n)]
    ring

/-- A field's number is that of its bit positions. -/
theorem gather_eq_bitsValue (w : IWord) (l : Layout) : ∀ acc, gather w l acc = bitsValue w l.bits acc := by
  induction l with
  | nil => intro acc; rfl
  | cons r rest ih =>
    intro acc
    rw [gather, Layout.bits, bitsValue_append, bitsValue_range, ih]
    rfl

/-- Two layouts with the same bit positions are the same field. -/
theorem field_congr (n : Nat) (w : IWord) (l k : Layout) (h : l.bits = k.bits) : field n w l = field n w k := by
  rw [field, field, gather_eq_bitsValue, gather_eq_bitsValue, h]

theorem bitsValue_testBit (w : IWord) (ps : List Nat) : ∀ acc j, j < ps.length →
    (bitsValue w ps acc).testBit j = w.getLsbD (ps.getD (ps.length - 1 - j) 0) := by
  induction ps using List.reverseRecOn with
  | nil => intro _ j h; cases h
  | append_singleton ps p ih =>
    intro acc j hj
    have hv : bitsValue w (ps ++ [p]) acc = 2 * bitsValue w ps acc + (w.getLsbD p).toNat := by
      rw [bitsValue_append]; rfl
    rw [hv, List.length_append, List.length_singleton]
    cases j with
    | zero =>
      rw [Nat.testBit_zero]
      cases h : w.getLsbD p <;> simp [h, Nat.add_mod]
    | succ j =>
      have hj' : j < ps.length := by simp at hj; omega
      have hd : (2 * bitsValue w ps acc + (w.getLsbD p).toNat) / 2 = bitsValue w ps acc := by
        cases w.getLsbD p <;> simp
        omega
      rw [Nat.testBit_succ, hd, ih acc j hj', show ps.length + 1 - 1 - (j + 1) = ps.length - 1 - j by omega]
      simp [List.getD_eq_getElem?_getD, List.getElem?_append_left (show ps.length - 1 - j < ps.length by omega)]

/-- Bit `j` of a field of `n` bits is the word's bit at its position, the last position for bit 0. -/
theorem field_getLsbD (n : Nat) (w : IWord) (l : Layout) (h : l.bits.length = n) (j : Nat) (hj : j < n) :
    (field n w l).getLsbD j = w.getLsbD (l.bits.getD (n - 1 - j) 0) := by
  subst h
  rw [field, gather_eq_bitsValue, BitVec.getLsbD_ofNat, bitsValue_testBit _ _ _ _ hj]
  simp [hj]

/-- The positions of a field that start-up accepts are bits of the word. -/
theorem Layout.bits_lt (l : Layout) (h : l.rangesOk = true) : ∀ p ∈ l.bits, p < 32 := by
  induction l with
  | nil => intro p hp; cases hp
  | cons r rest ih =>
    simp only [Layout.rangesOk, Bool.and_eq_true, decide_eq_true_eq] at h
    intro p hp
    rcases List.mem_append.1 hp with hp | hp
    · simp only [List.mem_reverse, List.mem_range'_1, BitRange.width] at hp
      omega
    · exact ih h.2 p hp

/-- Positions that follow each other downwards are one range. -/
theorem rangeCount_le_one (ps : List Nat) (h : ∀ k, k + 1 < ps.length → ps.getD k 0 = ps.getD (k + 1) 0 + 1) :
    rangeCount ps ≤ 1 := by
  induction ps with
  | nil => simp [rangeCount]
  | cons a ps ih =>
    cases ps with
    | nil => simp [rangeCount]
    | cons b rest =>
      have h0 := h 0 (by simp)
      simp only [List.getD_cons_zero, List.getD_cons_succ] at h0
      have := ih fun k hk => by simpa using h (k + 1) (by simpa using hk)
      simpa [rangeCount, h0] using this

end Sys2Proof
end

