-- ==== Sys2Proof/Laws/Pattern.lean ====
section
/-! SUPPORT. Laws/Pattern.lean: a pattern built from segments matches a word segment by segment. -/

namespace Sys2Proof

set_option Elab.async false

/-- The mask of a pattern as a number. -/
def Pattern.maskNat (p : Pattern) : Nat := p.foldl (fun acc s => 2 * acc + if s = .x then 0 else 1) 0
/-- The match value of a pattern as a number. -/
def Pattern.valueNat (p : Pattern) : Nat := p.foldl (fun acc s => 2 * acc + if s = .one then 1 else 0) 0

theorem foldl_digits (f : Sym → Nat) (p : Pattern) : ∀ a,
    p.foldl (fun acc s => 2 * acc + f s) a = a * 2 ^ p.length + p.foldl (fun acc s => 2 * acc + f s) 0 := by
  induction p with
  | nil => intro a; simp
  | cons s rest ih =>
    intro a
    simp only [List.foldl_cons, List.length_cons]
    rw [ih (2 * a + f s), ih (2 * 0 + f s), pow_succ]
    ring

theorem foldl_digits_lt (f : Sym → Nat) (hf : ∀ s, f s ≤ 1) (p : Pattern) :
    p.foldl (fun acc s => 2 * acc + f s) 0 < 2 ^ p.length := by
  induction p with
  | nil => simp
  | cons s rest ih =>
    simp only [List.foldl_cons, List.length_cons]
    rw [foldl_digits f rest, pow_succ]
    have : (2 * 0 + f s) * 2 ^ rest.length ≤ 1 * 2 ^ rest.length := Nat.mul_le_mul_right _ (by simpa using hf s)
    omega

theorem Pattern.maskNat_lt (p : Pattern) : p.maskNat < 2 ^ p.length :=
  foldl_digits_lt _ (by intro s; split <;> omega) p
theorem Pattern.valueNat_lt (p : Pattern) : p.valueNat < 2 ^ p.length :=
  foldl_digits_lt _ (by intro s; split <;> omega) p

theorem Pattern.maskNat_append (p q : Pattern) : Pattern.maskNat (p ++ q) = p.maskNat * 2 ^ q.length + q.maskNat := by
  unfold Pattern.maskNat; rw [List.foldl_append, foldl_digits]
theorem Pattern.valueNat_append (p q : Pattern) : Pattern.valueNat (p ++ q) = p.valueNat * 2 ^ q.length + q.valueNat := by
  unfold Pattern.valueNat; rw [List.foldl_append, foldl_digits]

/-- The matcher on numbers. -/
def MatchesNat (w : Nat) (p : Pattern) : Prop := w &&& p.maskNat = p.valueNat

theorem matches_iff_nat (w : IWord) (p : Pattern) (h : p.length = 32) : Matches w p = true ↔ MatchesNat w.toNat p := by
  have hm := p.maskNat_lt
  have hv := p.valueNat_lt
  rw [h] at hm hv
  have e1 : p.mask.toNat = p.maskNat := by
    show (BitVec.ofNat 32 p.maskNat).toNat = _
    rw [BitVec.toNat_ofNat, Nat.mod_eq_of_lt hm]
  have e2 : p.value.toNat = p.valueNat := by
    show (BitVec.ofNat 32 p.valueNat).toNat = _
    rw [BitVec.toNat_ofNat, Nat.mod_eq_of_lt hv]
  simp only [Matches, beq_iff_eq, ← BitVec.toNat_inj, BitVec.toNat_and, e1, e2, MatchesNat]

theorem and_split (w m k : Nat) (a b : Nat) (hb : b < 2 ^ k) (hm : m = a * 2 ^ k + b) :
    w &&& m = (w / 2 ^ k &&& a) * 2 ^ k + (w % 2 ^ k &&& b) := by
  subst hm
  have hlt : w % 2 ^ k &&& b < 2 ^ k := Nat.and_lt_two_pow _ hb
  apply Nat.eq_of_testBit_eq
  intro i
  rw [Nat.testBit_and]
  rw [show a * 2 ^ k + b = 2 ^ k * a + b by ring, show (w / 2 ^ k &&& a) * 2 ^ k + (w % 2 ^ k &&& b) =
    2 ^ k * (w / 2 ^ k &&& a) + (w % 2 ^ k &&& b) by ring,
    Nat.testBit_two_pow_mul_add _ hb, Nat.testBit_two_pow_mul_add _ hlt]
  split
  · rename_i hi
    rw [Nat.testBit_and, Nat.testBit_mod_two_pow]; simp [hi]
  · rename_i hi
    rw [Nat.testBit_and, Nat.testBit_div_two_pow, show i - k + k = i by omega]

theorem matchesNat_append (w : Nat) (p q : Pattern) :
    MatchesNat w (p ++ q) ↔ MatchesNat (w / 2 ^ q.length) p ∧ MatchesNat (w % 2 ^ q.length) q := by
  unfold MatchesNat
  rw [and_split w _ q.length _ _ q.maskNat_lt (Pattern.maskNat_append p q), Pattern.valueNat_append]
  have h1 : w % 2 ^ q.length &&& q.maskNat < 2 ^ q.length := Nat.and_lt_two_pow _ q.maskNat_lt
  have h2 := q.valueNat_lt
  have hpos : 0 < 2 ^ q.length := by positivity
  constructor
  · intro h
    have e : w / 2 ^ q.length &&& p.maskNat = p.valueNat := by
      have := congrArg (· / 2 ^ q.length) h
      simpa [Nat.add_div_of_dvd_right, Nat.mul_div_cancel _ hpos, Nat.div_eq_of_lt h1, Nat.div_eq_of_lt h2] using this
    refine ⟨e, ?_⟩
    rw [e] at h
    omega
  · rintro ⟨e1, e2⟩
    rw [e1, e2]

theorem matchesNat_any (w n : Nat) : MatchesNat w (Pattern.any n) := by
  have h1 : (Pattern.any n).maskNat = 0 := by
    induction n with
    | zero => rfl
    | succ n ih => simpa [Pattern.any, List.replicate_succ, Pattern.maskNat] using ih
  have h2 : (Pattern.any n).valueNat = 0 := by
    induction n with
    | zero => rfl
    | succ n ih => simpa [Pattern.any, List.replicate_succ, Pattern.valueNat, h1] using ih (by
        simpa [Pattern.any, List.replicate_succ, Pattern.maskNat] using h1)
  rw [MatchesNat, h1, h2, Nat.and_zero]

@[simp] theorem Pattern.length_any (n : Nat) : (Pattern.any n).length = n := List.length_replicate
@[simp] theorem Pattern.length_fixed (n v : Nat) : (Pattern.fixed n v).length = n := by
  induction n with
  | zero => rfl
  | succ n ih => simp [Pattern.fixed, ih]

theorem Pattern.fixed_succ (n v : Nat) :
    Pattern.fixed (n + 1) v = (if v.testBit n then .one else .zero) :: Pattern.fixed n v := rfl

theorem Pattern.maskNat_fixed (n v : Nat) : (Pattern.fixed n v).maskNat = 2 ^ n - 1 := by
  induction n with
  | zero => rfl
  | succ n ih =>
    have : (Pattern.fixed (n + 1) v).maskNat = 1 * 2 ^ n + (Pattern.fixed n v).maskNat := by
      rw [Pattern.fixed_succ]
      unfold Pattern.maskNat
      rw [List.foldl_cons, foldl_digits, Pattern.length_fixed]
      split <;> simp
    rw [this, ih, pow_succ]
    have : 0 < 2 ^ n := by positivity
    omega

theorem Pattern.valueNat_fixed (n v : Nat) : (Pattern.fixed n v).valueNat = v % 2 ^ n := by
  induction n with
  | zero => simp [Pattern.fixed, Pattern.valueNat, Nat.mod_one]
  | succ n ih =>
    have : (Pattern.fixed (n + 1) v).valueNat = (if v.testBit n then 1 else 0) * 2 ^ n + (Pattern.fixed n v).valueNat := by
      rw [Pattern.fixed_succ]
      unfold Pattern.valueNat
      rw [List.foldl_cons, foldl_digits, Pattern.length_fixed]
      split <;> simp
    rw [this, ih, Nat.mod_pow_succ, Nat.testBit_eq_decide_div_mod_eq]
    have h2 : v / 2 ^ n % 2 = 0 ∨ v / 2 ^ n % 2 = 1 := by omega
    rcases h2 with h2 | h2 <;> simp [h2]
    ring

theorem matchesNat_fixed (w n v : Nat) (hw : w < 2 ^ n) (hv : v < 2 ^ n) : MatchesNat w (Pattern.fixed n v) ↔ w = v := by
  rw [MatchesNat, Pattern.maskNat_fixed, Pattern.valueNat_fixed, Nat.mod_eq_of_lt hv, Nat.and_two_pow_sub_one_eq_mod,
    Nat.mod_eq_of_lt hw]

end Sys2Proof
end

