-- ==== Sys2Proof/Laws/PerInstr.lean ====
section
/-! SUPPORT. Laws/PerInstr.lean: for every instruction, the word the encoder writes matches a row of RE that carries the
instruction's mnemonic. One lemma per constructor, over one lemma per format. -/

namespace Sys2Proof.Laws.EncodeMatchesRow

set_option Elab.async false

open Sys2Proof

/-- The encoded word of `i` matches a row of RE with the mnemonic of `i`. -/
def Statement (i : Instr) : Prop := ∃ row ∈ re, row.mnemonic = i.mnemonic ∧ Matches (encode i) row.pattern = true

theorem formatR (m : Mnemonic) (f7 : BitVec 7) (f3 : BitVec 3) (rd rs1 rs2 : Reg) :
    Matches (encodeR f7 f3 rd rs1 rs2) (reRowR m f7.toNat f3.toNat).pattern = true := by
  rw [matches_iff_nat _ _ (by simp [reRowR]), encodeR_toNat]
  have h1 := f7.isLt; have h2 := f3.isLt; have h3 := rd.isLt; have h4 := rs1.isLt; have h5 := rs2.isLt
  simp only [reRowR, matchesNat_append, matchesNat_any, Pattern.length_any, Pattern.length_fixed, and_true]
  refine ⟨⟨?_, ?_⟩, ?_⟩ <;> rw [matchesNat_fixed _ _ _ (by omega) (by omega)] <;> omega

theorem formatI (m : Mnemonic) (f3 : BitVec 3) (op : BitVec 7) (rd rs1 : Reg) (imm : BitVec 11) :
    Matches (encodeI f3 op rd rs1 imm) (reRowI m f3.toNat op.toNat).pattern = true := by
  rw [matches_iff_nat _ _ (by simp [reRowI]), encodeI_toNat]
  have h1 := op.isLt; have h2 := f3.isLt; have h3 := rd.isLt; have h4 := rs1.isLt; have h5 := imm.isLt
  simp only [reRowI, matchesNat_append, matchesNat_any, Pattern.length_any, Pattern.length_fixed, and_true, true_and]
  refine ⟨⟨?_, ?_⟩, ?_⟩ <;> rw [matchesNat_fixed _ _ _ (by omega) (by omega)] <;> omega

theorem formatSh (m : Mnemonic) (top : BitVec 8) (f3 : BitVec 3) (rd rs1 : Reg) (shamt : BitVec 4) :
    Matches (encodeSh top f3 rd rs1 shamt) (reRowSh m top.toNat f3.toNat).pattern = true := by
  rw [matches_iff_nat _ _ (by simp [reRowSh]), encodeSh_toNat]
  have h1 := top.isLt; have h2 := f3.isLt; have h3 := rd.isLt; have h4 := rs1.isLt; have h5 := shamt.isLt
  simp only [reRowSh, matchesNat_append, matchesNat_any, Pattern.length_any, Pattern.length_fixed, and_true]
  refine ⟨⟨?_, ?_⟩, ?_⟩ <;> rw [matchesNat_fixed _ _ _ (by omega) (by omega)] <;> omega

theorem formatS (m : Mnemonic) (f3 : BitVec 3) (rs base : Reg) (imm : BitVec 11) :
    Matches (encodeS f3 rs base imm) (reRowS m f3.toNat).pattern = true := by
  rw [matches_iff_nat _ _ (by simp [reRowS]), encodeS_toNat]
  have h2 := f3.isLt; have h3 := rs.isLt; have h4 := base.isLt; have h5 := imm.isLt
  simp only [reRowS, matchesNat_append, matchesNat_any, Pattern.length_any, Pattern.length_fixed, and_true, true_and]
  refine ⟨⟨?_, ?_⟩, ?_⟩ <;> rw [matchesNat_fixed _ _ _ (by omega) (by omega)] <;> omega

theorem formatB (m : Mnemonic) (f3 : BitVec 3) (rs1 rs2 : Reg) (off : BitVec 13) :
    Matches (encodeB f3 rs1 rs2 off) (reRowB m f3.toNat).pattern = true := by
  rw [matches_iff_nat _ _ (by simp [reRowB]), encodeB_toNat]
  have h2 := f3.isLt; have h3 := rs1.isLt; have h4 := rs2.isLt
  have h5 : off.toNat / 2 ^ 12 < 2 := by have := off.isLt; omega
  have h6 : off.toNat / 2 ^ 5 % 2 ^ 6 < 2 ^ 6 := Nat.mod_lt _ (by decide)
  have h7 : off.toNat / 2 % 2 ^ 4 < 2 ^ 4 := Nat.mod_lt _ (by decide)
  have h8 : off.toNat / 2 ^ 11 % 2 < 2 := Nat.mod_lt _ (by decide)
  generalize off.toNat / 2 ^ 12 = o12, off.toNat / 2 ^ 5 % 2 ^ 6 = o5, off.toNat / 2 % 2 ^ 4 = o1,
    off.toNat / 2 ^ 11 % 2 = o11 at *
  simp only [reRowB, matchesNat_append, matchesNat_any, Pattern.length_any, Pattern.length_fixed, and_true, true_and]
  refine ⟨?_, ?_⟩ <;> rw [matchesNat_fixed _ _ _ (by omega) (by omega)] <;> omega

theorem formatU (m : Mnemonic) (op : BitVec 7) (rd : Reg) (imm : BitVec 16) :
    Matches (encodeU op rd imm) (reRowU m op.toNat).pattern = true := by
  rw [matches_iff_nat _ _ (by simp [reRowU]), encodeU_toNat]
  have h1 := op.isLt; have h3 := rd.isLt
  have h5 : imm.toNat / 2 ^ 10 < 2 ^ 6 := by have := imm.isLt; omega
  have h6 : imm.toNat % 2 ^ 5 < 2 ^ 5 := Nat.mod_lt _ (by decide)
  have h7 : imm.toNat / 2 ^ 5 % 2 ^ 5 < 2 ^ 5 := Nat.mod_lt _ (by decide)
  generalize imm.toNat / 2 ^ 10 = i10, imm.toNat % 2 ^ 5 = i0, imm.toNat / 2 ^ 5 % 2 ^ 5 = i5 at *
  simp only [reRowU, matchesNat_append, matchesNat_any, Pattern.length_any, Pattern.length_fixed, and_true, true_and]
  refine ⟨⟨?_, ?_⟩, ?_⟩ <;> rw [matchesNat_fixed _ _ _ (by omega) (by omega)] <;> omega

theorem lb (rd rs1 : Reg) (imm : BitVec 11) : Statement (.lb rd rs1 imm) :=
  ⟨reRowI .lb 0b000 0b0000011, by decide +kernel, rfl, formatI .lb 0b000 0b0000011 rd rs1 imm⟩

theorem lbu (rd rs1 : Reg) (imm : BitVec 11) : Statement (.lbu rd rs1 imm) :=
  ⟨reRowI .lbu 0b100 0b0000011, by decide +kernel, rfl, formatI .lbu 0b100 0b0000011 rd rs1 imm⟩

theorem lw (rd rs1 : Reg) (imm : BitVec 11) : Statement (.lw rd rs1 imm) :=
  ⟨reRowI .lw 0b010 0b0000011, by decide +kernel, rfl, formatI .lw 0b010 0b0000011 rd rs1 imm⟩

theorem sb (rs base : Reg) (imm : BitVec 11) : Statement (.sb rs base imm) :=
  ⟨reRowS .sb 0b000, by decide +kernel, rfl, formatS .sb 0b000 rs base imm⟩

theorem sw (rs base : Reg) (imm : BitVec 11) : Statement (.sw rs base imm) :=
  ⟨reRowS .sw 0b010, by decide +kernel, rfl, formatS .sw 0b010 rs base imm⟩

theorem add (rd rs1 rs2 : Reg) : Statement (.add rd rs1 rs2) :=
  ⟨reRowR .add 0b0000000 0b000, by decide +kernel, rfl, formatR .add 0b0000000 0b000 rd rs1 rs2⟩

theorem sub (rd rs1 rs2 : Reg) : Statement (.sub rd rs1 rs2) :=
  ⟨reRowR .sub 0b0100000 0b000, by decide +kernel, rfl, formatR .sub 0b0100000 0b000 rd rs1 rs2⟩

theorem xor (rd rs1 rs2 : Reg) : Statement (.xor rd rs1 rs2) :=
  ⟨reRowR .xor 0b0000000 0b100, by decide +kernel, rfl, formatR .xor 0b0000000 0b100 rd rs1 rs2⟩

theorem or (rd rs1 rs2 : Reg) : Statement (.or rd rs1 rs2) :=
  ⟨reRowR .or 0b0000000 0b110, by decide +kernel, rfl, formatR .or 0b0000000 0b110 rd rs1 rs2⟩

theorem and (rd rs1 rs2 : Reg) : Statement (.and rd rs1 rs2) :=
  ⟨reRowR .and 0b0000000 0b111, by decide +kernel, rfl, formatR .and 0b0000000 0b111 rd rs1 rs2⟩

theorem sll (rd rs1 rs2 : Reg) : Statement (.sll rd rs1 rs2) :=
  ⟨reRowR .sll 0b0000000 0b001, by decide +kernel, rfl, formatR .sll 0b0000000 0b001 rd rs1 rs2⟩

theorem srl (rd rs1 rs2 : Reg) : Statement (.srl rd rs1 rs2) :=
  ⟨reRowR .srl 0b0000000 0b101, by decide +kernel, rfl, formatR .srl 0b0000000 0b101 rd rs1 rs2⟩

theorem sra (rd rs1 rs2 : Reg) : Statement (.sra rd rs1 rs2) :=
  ⟨reRowR .sra 0b0100000 0b101, by decide +kernel, rfl, formatR .sra 0b0100000 0b101 rd rs1 rs2⟩

theorem slt (rd rs1 rs2 : Reg) : Statement (.slt rd rs1 rs2) :=
  ⟨reRowR .slt 0b0000000 0b010, by decide +kernel, rfl, formatR .slt 0b0000000 0b010 rd rs1 rs2⟩

theorem sltu (rd rs1 rs2 : Reg) : Statement (.sltu rd rs1 rs2) :=
  ⟨reRowR .sltu 0b0000000 0b011, by decide +kernel, rfl, formatR .sltu 0b0000000 0b011 rd rs1 rs2⟩

theorem mul (rd rs1 rs2 : Reg) : Statement (.mul rd rs1 rs2) :=
  ⟨reRowR .mul 0b0000001 0b000, by decide +kernel, rfl, formatR .mul 0b0000001 0b000 rd rs1 rs2⟩

theorem mulh (rd rs1 rs2 : Reg) : Statement (.mulh rd rs1 rs2) :=
  ⟨reRowR .mulh 0b0000001 0b001, by decide +kernel, rfl, formatR .mulh 0b0000001 0b001 rd rs1 rs2⟩

theorem mulhsu (rd rs1 rs2 : Reg) : Statement (.mulhsu rd rs1 rs2) :=
  ⟨reRowR .mulhsu 0b0000001 0b010, by decide +kernel, rfl, formatR .mulhsu 0b0000001 0b010 rd rs1 rs2⟩

theorem mulhu (rd rs1 rs2 : Reg) : Statement (.mulhu rd rs1 rs2) :=
  ⟨reRowR .mulhu 0b0000001 0b011, by decide +kernel, rfl, formatR .mulhu 0b0000001 0b011 rd rs1 rs2⟩

theorem div (rd rs1 rs2 : Reg) : Statement (.div rd rs1 rs2) :=
  ⟨reRowR .div 0b0000001 0b100, by decide +kernel, rfl, formatR .div 0b0000001 0b100 rd rs1 rs2⟩

theorem divu (rd rs1 rs2 : Reg) : Statement (.divu rd rs1 rs2) :=
  ⟨reRowR .divu 0b0000001 0b101, by decide +kernel, rfl, formatR .divu 0b0000001 0b101 rd rs1 rs2⟩

theorem rem (rd rs1 rs2 : Reg) : Statement (.rem rd rs1 rs2) :=
  ⟨reRowR .rem 0b0000001 0b110, by decide +kernel, rfl, formatR .rem 0b0000001 0b110 rd rs1 rs2⟩

theorem remu (rd rs1 rs2 : Reg) : Statement (.remu rd rs1 rs2) :=
  ⟨reRowR .remu 0b0000001 0b111, by decide +kernel, rfl, formatR .remu 0b0000001 0b111 rd rs1 rs2⟩

theorem addi (rd rs1 : Reg) (imm : BitVec 11) : Statement (.addi rd rs1 imm) :=
  ⟨reRowI .addi 0b000 0b0010011, by decide +kernel, rfl, formatI .addi 0b000 0b0010011 rd rs1 imm⟩

theorem xori (rd rs1 : Reg) (imm : BitVec 11) : Statement (.xori rd rs1 imm) :=
  ⟨reRowI .xori 0b100 0b0010011, by decide +kernel, rfl, formatI .xori 0b100 0b0010011 rd rs1 imm⟩

theorem ori (rd rs1 : Reg) (imm : BitVec 11) : Statement (.ori rd rs1 imm) :=
  ⟨reRowI .ori 0b110 0b0010011, by decide +kernel, rfl, formatI .ori 0b110 0b0010011 rd rs1 imm⟩

theorem andi (rd rs1 : Reg) (imm : BitVec 11) : Statement (.andi rd rs1 imm) :=
  ⟨reRowI .andi 0b111 0b0010011, by decide +kernel, rfl, formatI .andi 0b111 0b0010011 rd rs1 imm⟩

theorem slli (rd rs1 : Reg) (shamt : BitVec 4) : Statement (.slli rd rs1 shamt) :=
  ⟨reRowSh .slli 0b00000000 0b001, by decide +kernel, rfl, formatSh .slli 0b00000000 0b001 rd rs1 shamt⟩

theorem srli (rd rs1 : Reg) (shamt : BitVec 4) : Statement (.srli rd rs1 shamt) :=
  ⟨reRowSh .srli 0b00000000 0b101, by decide +kernel, rfl, formatSh .srli 0b00000000 0b101 rd rs1 shamt⟩

theorem srai (rd rs1 : Reg) (shamt : BitVec 4) : Statement (.srai rd rs1 shamt) :=
  ⟨reRowSh .srai 0b01000000 0b101, by decide +kernel, rfl, formatSh .srai 0b01000000 0b101 rd rs1 shamt⟩

theorem slti (rd rs1 : Reg) (imm : BitVec 11) : Statement (.slti rd rs1 imm) :=
  ⟨reRowI .slti 0b010 0b0010011, by decide +kernel, rfl, formatI .slti 0b010 0b0010011 rd rs1 imm⟩

theorem sltiu (rd rs1 : Reg) (imm : BitVec 11) : Statement (.sltiu rd rs1 imm) :=
  ⟨reRowI .sltiu 0b011 0b0010011, by decide +kernel, rfl, formatI .sltiu 0b011 0b0010011 rd rs1 imm⟩

theorem li (rd : Reg) (imm : BitVec 16) : Statement (.li rd imm) :=
  ⟨reRowU .li 0b0110111, by decide +kernel, rfl, formatU .li 0b0110111 rd imm⟩

theorem beq (rs1 rs2 : Reg) (off : BitVec 13) : Statement (.beq rs1 rs2 off) :=
  ⟨reRowB .beq 0b000, by decide +kernel, rfl, formatB .beq 0b000 rs1 rs2 off⟩

theorem bne (rs1 rs2 : Reg) (off : BitVec 13) : Statement (.bne rs1 rs2 off) :=
  ⟨reRowB .bne 0b001, by decide +kernel, rfl, formatB .bne 0b001 rs1 rs2 off⟩

theorem blt (rs1 rs2 : Reg) (off : BitVec 13) : Statement (.blt rs1 rs2 off) :=
  ⟨reRowB .blt 0b100, by decide +kernel, rfl, formatB .blt 0b100 rs1 rs2 off⟩

theorem bge (rs1 rs2 : Reg) (off : BitVec 13) : Statement (.bge rs1 rs2 off) :=
  ⟨reRowB .bge 0b101, by decide +kernel, rfl, formatB .bge 0b101 rs1 rs2 off⟩

theorem bltu (rs1 rs2 : Reg) (off : BitVec 13) : Statement (.bltu rs1 rs2 off) :=
  ⟨reRowB .bltu 0b110, by decide +kernel, rfl, formatB .bltu 0b110 rs1 rs2 off⟩

theorem bgeu (rs1 rs2 : Reg) (off : BitVec 13) : Statement (.bgeu rs1 rs2 off) :=
  ⟨reRowB .bgeu 0b111, by decide +kernel, rfl, formatB .bgeu 0b111 rs1 rs2 off⟩

theorem jal (rd : Reg) (imm : BitVec 16) : Statement (.jal rd imm) :=
  ⟨reRowU .jal 0b1101111, by decide +kernel, rfl, formatU .jal 0b1101111 rd imm⟩

theorem jalr (rd rs1 : Reg) (imm : BitVec 11) : Statement (.jalr rd rs1 imm) :=
  ⟨reRowI .jalr 0b000 0b1100111, by decide +kernel, rfl, formatI .jalr 0b000 0b1100111 rd rs1 imm⟩

end Sys2Proof.Laws.EncodeMatchesRow
end

