-- ==== Sys2Proof/Tests/Slice0.lean ====
section
/-! SUPPORT. Tests/Slice0.lean: the model's own tests. Expected values come from the spec: the examples of the family files
(R94 to R143), the vectors of 95_test_vectors.md, the pattern table of 30_encoding.md section 6, or hand calculation from a
rule, as each section says. The `witness_` theorems show that the hypotheses of the obligations can be met. -/

namespace Sys2Proof.Tests

set_option Elab.async false

open Sys2Proof Sys2Proof.Machine Sys2Proof.Claims

/-! ## Helpers -/

/-- The spec's test configuration TC. -/
def tc : Config := Config.atReset
/-- TC with another X0_POLICY. -/
def tcOrdinary : Config := { tc with x0Policy := .ordinary }
/-- TC with another HALF_ORDER. -/
def tcBig : Config := { tc with halfOrder := .big }
/-- TC with another HALF_MISALIGNED. -/
def tcMisaligned (m : HalfMisaligned) : Config := { tc with halfMisaligned := m }
/-- TC with FETCH from data memory. -/
def tcFetch (order : ByteOrder) (u : UnalignedFetch) (coherent : Bool) : Config :=
  { tc with fetch := .dataMemory order u, fetchCoherent := coherent }

/-- A small machine: some registers, some bytes, every other one 0. -/
def machine (cfg : Config) (pc : Word) (regs : List (Nat × Word)) (mem : List (Nat × Byte)) : State :=
  State.launch
    { cfg := cfg
      initRegs := regs.foldl (fun v p => v.setIfInBounds p.1 p.2) (Vector.replicate 32 0)
      resetPc := pc
      initMem := mem.foldl (fun m p => Memory.write m p.1 p.2) []
      image := [] }

/-- The state after one step on a word, if the step completes. -/
def after (s : State) (w : IWord) : Option State :=
  match coreStep w s with
  | .next t => some t
  | .fault _ => none
  | .refused _ => none

/-- What a step on a word stops on, if it stops. -/
def stopOn (s : State) (w : IWord) : Option Fault :=
  match coreStep w s with
  | .fault f => some f
  | .next _ => none
  | .refused _ => none

/-- A register and the PC after one step on a word. -/
def regPc (r : Nat) (s : State) (w : IWord) : Option (Word × Word) :=
  (after s w).map fun t => (t.readReg (BitVec.ofNat 5 r), t.pc)

/-- The memory, as listed bytes, and the PC after one step on a word. -/
def memPc (s : State) (w : IWord) : Option (List (Nat × Nat) × Word) :=
  (after s w).map fun t => (t.mem.map fun c => (c.1, c.2.toNat), t.pc)

/-- `x1` and `x2` set, PC 0x0100. -/
def two (a b : Word) : State := machine tc 0x0100 [(1, a), (2, b)] []

/-! ## The encoding: the match values and masks of 30_encoding.md section 6, in R68's order -/

theorem test_reLoadStore_patterns : (reLoadStore.map fun r => (r.pattern.value.toNat, r.pattern.mask.toNat)) =
    [(0x00000003, 0x4000707F), (0x00004003, 0x4000707F), (0x00002003, 0x4000707F), (0x00000023, 0x0200707F),
     (0x00002023, 0x0200707F)] := by decide +kernel

theorem test_reAlu_patterns : (reAlu.map fun r => (r.pattern.value.toNat, r.pattern.mask.toNat)) =
    [(0x00000033, 0xFE00707F), (0x40000033, 0xFE00707F), (0x00004033, 0xFE00707F), (0x00006033, 0xFE00707F),
     (0x00007033, 0xFE00707F), (0x00001033, 0xFE00707F), (0x00005033, 0xFE00707F), (0x40005033, 0xFE00707F),
     (0x00002033, 0xFE00707F), (0x00003033, 0xFE00707F)] := by decide +kernel

theorem test_reMulDiv_patterns : (reMulDiv.map fun r => (r.pattern.value.toNat, r.pattern.mask.toNat)) =
    [(0x02000033, 0xFE00707F), (0x02001033, 0xFE00707F), (0x02002033, 0xFE00707F), (0x02003033, 0xFE00707F),
     (0x02004033, 0xFE00707F), (0x02005033, 0xFE00707F), (0x02006033, 0xFE00707F), (0x02007033, 0xFE00707F)] := by decide +kernel

theorem test_reAluImm_patterns : (reAluImm.map fun r => (r.pattern.value.toNat, r.pattern.mask.toNat)) =
    [(0x00000013, 0x4000707F), (0x00004013, 0x4000707F), (0x00006013, 0x4000707F), (0x00007013, 0x4000707F),
     (0x00001013, 0xFF00707F), (0x00005013, 0xFF00707F), (0x40005013, 0xFF00707F), (0x00002013, 0x4000707F),
     (0x00003013, 0x4000707F), (0x00000037, 0x0200707F)] := by decide +kernel

theorem test_reControl_patterns : (reControl.map fun r => (r.pattern.value.toNat, r.pattern.mask.toNat)) =
    [(0x00000063, 0x0000707F), (0x00001063, 0x0000707F), (0x00004063, 0x0000707F), (0x00005063, 0x0000707F),
     (0x00006063, 0x0000707F), (0x00007063, 0x0000707F), (0x0000006F, 0x0200707F), (0x00000067, 0x4000707F)] := by decide +kernel

/-- R66 and R68: one entry per mnemonic, in the listing order. -/
theorem test_re_order : (re.map fun r => r.mnemonic) = Mnemonic.all := by decide +kernel

/-- R68's count, and the length of every pattern (R59). -/
theorem test_re_size : re.length = 41 ∧ (re.all fun r => r.pattern.length == 32) = true := by decide +kernel

/-- 95_test_vectors.md section L2.2: 55,164,928 words decode. -/
theorem test_re_count : ((re.map fun r => 2 ^ (r.pattern.filter fun c => c == .x).length).foldl (· + ·) 0) = 55164928 := by
  decide +kernel

/-! ## Decoding: words written out from the spec (95_test_vectors.md and the family files), every constructor -/

/-- LS-3, LS-4 and LS-8. -/
theorem test_decode_loads :
    decode 0xBFF10183 = some (.lb 3 2 0x7FF) ∧
    decode 0x3FF14183 = some (.lbu 3 2 0x3FF) ∧
    decode 0x80012183 = some (.lw 3 2 0x400) := by decide +kernel

/-- LS-11, LS-12 and LS-14: base in the rd position, value register in the rs2 position. -/
theorem test_decode_stores :
    decode 0xFC1F8123 = some (.sb 1 2 0x7FF) ∧
    decode 0x00122123 = some (.sw 1 2 4) ∧
    decode 0xFC1F2123 = some (.sw 1 2 0x7FE) := by decide +kernel

/-- L2.3. -/
theorem test_decode_alu :
    decode 0x002081B3 = some (.add 3 1 2) ∧
    decode 0x402081B3 = some (.sub 3 1 2) ∧
    decode 0x0020C1B3 = some (.xor 3 1 2) ∧
    decode 0x0020E1B3 = some (.or 3 1 2) ∧
    decode 0x0020F1B3 = some (.and 3 1 2) ∧
    decode 0x002091B3 = some (.sll 3 1 2) ∧
    decode 0x0020D1B3 = some (.srl 3 1 2) ∧
    decode 0x4020D1B3 = some (.sra 3 1 2) ∧
    decode 0x0020A1B3 = some (.slt 3 1 2) ∧
    decode 0x0020B1B3 = some (.sltu 3 1 2) ∧
    decode 0x01FF8FB3 = some (.add 31 31 31) := by decide +kernel

/-- L2.5. -/
theorem test_decode_muldiv :
    decode 0x022081B3 = some (.mul 3 1 2) ∧
    decode 0x022091B3 = some (.mulh 3 1 2) ∧
    decode 0x0220A1B3 = some (.mulhsu 3 1 2) ∧
    decode 0x0220B1B3 = some (.mulhu 3 1 2) ∧
    decode 0x0220C1B3 = some (.div 3 1 2) ∧
    decode 0x0220D1B3 = some (.divu 3 1 2) ∧
    decode 0x0220E1B3 = some (.rem 3 1 2) ∧
    decode 0x0220F1B3 = some (.remu 3 1 2) := by decide +kernel

/-- L2.4. -/
theorem test_decode_aluimm :
    decode 0x80008193 = some (.addi 3 1 0x400) ∧
    decode 0xBFF0C193 = some (.xori 3 1 0x7FF) ∧
    decode 0x8000E193 = some (.ori 3 1 0x400) ∧
    decode 0x3FF0F193 = some (.andi 3 1 0x3FF) ∧
    decode 0x00F09193 = some (.slli 3 1 15) ∧
    decode 0x0040D193 = some (.srli 3 1 4) ∧
    decode 0x40F0D193 = some (.srai 3 1 15) ∧
    decode 0x8000A193 = some (.slti 3 1 0x400) ∧
    decode 0xBFF0B193 = some (.sltiu 3 1 0x7FF) ∧
    decode 0xBCFB81B7 = some (.li 3 0xBEEF) ∧
    decode 0x7D0F81B7 = some (.li 3 0x7FF0) := by decide +kernel

/-- L2.7: offsets -8, 4094, -4096, 2, 16 and 12. -/
theorem test_decode_control :
    decode 0xFE208CE3 = some (.beq 1 2 0x1FF8) ∧
    decode 0x7E208FE3 = some (.beq 1 2 0x0FFE) ∧
    decode 0x80208063 = some (.beq 1 2 0x1000) ∧
    decode 0x00209163 = some (.bne 1 2 2) ∧
    decode 0x0020C863 = some (.blt 1 2 16) ∧
    decode 0x0020D863 = some (.bge 1 2 16) ∧
    decode 0x0020E663 = some (.bltu 1 2 12) ∧
    decode 0x0020F663 = some (.bgeu 1 2 12) ∧
    decode 0xFD8F80EF = some (.jal 1 0xFFF8) ∧
    decode 0xBFC08067 = some (.jalr 0 1 0x7FC) := by decide +kernel

/-- L2.2, DEC-1 to DEC-16 and DEC-20. -/
theorem test_decode_illegal :
    ([0x00000000, 0xFFFFFFFF, 0x40008193, 0x02002023, 0x02000037, 0x0200006F, 0xFE0081B3, 0x00002063, 0x00003063] ++
     [0x00003003, 0x00006003, 0x00004023, 0x01009193, 0x8000D193, 0x00001067, 0x00001037, 0x4220D1B3]).all
      (fun w => decode w == none) = true := by decide +kernel

/-- L2.2, DEC-17 to DEC-19 (R90): no hint, no special case. -/
theorem test_decode_legal_corners :
    decode 0x00000013 = some (.addi 0 0 0) ∧ decode 0xBFF00013 = some (.addi 0 0 0x7FF) ∧
    decode 0xFE000FE3 = some (.beq 0 0 0x1FFE) := by decide +kernel

/-- U-8 to U-11: field extraction. -/
theorem test_extract_bits :
    extractBits 0x12345678 ⟨31, 28⟩ = 1 ∧ extractBits 0x12345678 ⟨6, 0⟩ = 0x78 ∧
    extractBits 0x12345678 ⟨19, 15⟩ = 0x08 ∧ extractBits 0x12345678 ⟨11, 7⟩ = 0x0C := by decide +kernel

/-- R91 and R92: the encoder gives the words of L2. -/
theorem test_encode :
    encode (.sb 1 2 0x7FF) = 0xFC1F8123 ∧ encode (.li 3 0xBEEF) = 0xBCFB81B7 ∧ encode (.beq 1 2 0x1FF8) = 0xFE208CE3 ∧
    encode (.srai 3 1 15) = 0x40F0D193 ∧ encode (.lw 3 2 0x400) = 0x80012183 ∧ encode (.remu 3 1 2) = 0x0220F1B3 := by
  decide +kernel

/-- Numbered as the table numbers them; a word longer than an instruction is no instruction (R58). -/
theorem test_decode_table_word :
    decodeTableWord 32 0x002081B3 = some (.add 3 1 2) ∧ decodeTableWord 32 0 = none ∧
    decodeTableWord 40 0x01002081B3 = none := by decide +kernel

/-! ## Well-formedness smoke: one ill-formed term for each check -/

/-- R74: an odd offset is refused, in each of the six branches. -/
theorem test_wf_refuses_odd_offsets :
    Instr.wf (.beq 1 2 1) = false ∧ Instr.wf (.bne 1 2 0x1FFF) = false ∧ Instr.wf (.blt 1 2 3) = false ∧
    Instr.wf (.bge 1 2 5) = false ∧ Instr.wf (.bltu 1 2 7) = false ∧ Instr.wf (.bgeu 1 2 9) = false := by decide

/-- Even offsets and every other operand are accepted. -/
theorem test_wf_accepts :
    Instr.wf (.beq 0 31 0x1000) = true ∧ Instr.wf (.bgeu 1 2 0x0FFE) = true ∧ Instr.wf (.jalr 0 1 0x7FF) = true ∧
    Instr.wf (.jal 0 0xFFFF) = true := by decide

/-- A table with one row changed. -/
def reWith (m : Mnemonic) (f : EncRow → EncRow) : Enc := re.map fun r => if r.mnemonic = m then f r else r

/-- R60: 31 or 33 symbols. -/
theorem test_startup_refuses_pattern_length :
    (reWith .add fun r => { r with pattern := r.pattern.tail }).firstError = some .malformedPattern ∧
    (reWith .jalr fun r => { r with pattern := .x :: r.pattern }).firstError = some .malformedPattern := by decide +kernel

/-- R66: a row is missing, or a mnemonic has two rows and another none. -/
theorem test_startup_refuses_wrong_entries :
    Enc.firstError re.tail = some .wrongEntries ∧
    (reWith .add fun r => { r with mnemonic := .sub }).firstError = some .wrongEntries := by decide +kernel

/-- R67: two rows with one pattern. -/
theorem test_startup_refuses_overlap :
    (reWith .add fun r => { r with pattern := (reRowR .sub 0b0100000 0b000).pattern }).firstError = some .notExclusive := by
  decide +kernel

/-- R69: a 4-bit register field, a range beyond bit 31, a load immediate in one range, written whole or cut in two. -/
theorem test_startup_refuses_fields :
    (reWith .add fun r => { r with rd := [⟨10, 7⟩] }).firstError = some .badField ∧
    (reWith .add fun r => { r with rs2 := [⟨32, 28⟩] }).firstError = some .badField ∧
    (reWith .lb fun r => { r with imm := [⟨30, 20⟩] }).firstError = some .badField ∧
    (reWith .lb fun r => { r with imm := [⟨30, 25⟩, ⟨24, 20⟩] }).firstError = some .badField := by decide +kernel

/-- R69: an S-, B- and U16-immediate with one range too few, in a layout with as many entries as R69 counts ranges. -/
theorem test_startup_refuses_joined_ranges :
    (reWith .sb fun r => { r with imm := [⟨31, 26⟩, ⟨25, 21⟩] }).firstError = some .badField ∧
    (reWith .beq fun r => { r with imm := [⟨31, 31⟩, ⟨30, 25⟩, ⟨11, 8⟩, ⟨7, 7⟩] }).firstError = some .badField ∧
    (reWith .li fun r => { r with imm := [⟨31, 26⟩, ⟨24, 20⟩, ⟨19, 15⟩] }).firstError = some .badField := by decide +kernel

/-- R69 and R73: a store whose base is not at the rd position, or whose immediate lies where the loads' does, also where the two
layouts cut the same bits differently. -/
theorem test_startup_refuses_stores :
    (reWith .sb fun r => { r with rd := reRs1 }).firstError = some .badStore ∧
    (reWith .sb fun r => { r with imm := [⟨31, 31⟩, ⟨29, 20⟩] }).firstError = some .badStore ∧
    (reWith .sb fun r => { r with imm := [⟨31, 31⟩, ⟨29, 25⟩, ⟨24, 20⟩] }).firstError = some .badStore := by decide +kernel

/-- R69 speaks of bit positions: another spelling of RE's own fields is accepted. -/
theorem test_startup_accepts_other_spelling :
    (reWith .sb fun r => { r with rd := [⟨11, 9⟩, ⟨8, 7⟩], imm := [⟨31, 28⟩, ⟨27, 26⟩, ⟨19, 15⟩] }).firstError = none := by
  decide +kernel

/-! ## Utilities (L1 and L2.1) -/

/-- L1-1, L1-2, U-1, U-2 and U-3. -/
theorem test_sext :
    sext (0x400#11) = 0xFC00 ∧ sext (0x3FF#11) = 0x03FF ∧ sext (0x1000#13) = 0xF000 ∧ sext (0x80#8) = 0xFF80 ∧
    sext (0x7FF#11) = 0xFFFF := by decide

/-- L1-3, L1-4, L1-5 and U-4 to U-7. -/
theorem test_asr :
    asr 0x8000 4 = 0xF800 ∧ asr 0x8000 16 = 0xFFFF ∧ asr 0x0010 4 = 0x0001 ∧ asr 0x7FFF 16 = 0x0000 ∧
    asr 0x8000 0 = 0x8000 ∧ asr 0xFFFF 15 = 0xFFFF ∧ asr 0x4000 14 = 0x0001 := by decide

/-! ## One step each: the register written and the PC (examples of the family files and the corners of L2) -/

/-- R94, L1-6. -/
theorem test_add : regPc 3 (two 0xFFFF 0x0001) 0x002081B3 = some (0x0000, 0x0104) := by decide +kernel
/-- R-ALU-3. -/
theorem test_add_source_is_destination : regPc 1 (two 0x4001 0x0000) 0x001080B3 = some (0x8002, 0x0104) := by decide +kernel
/-- R95. -/
theorem test_sub : regPc 3 (two 0x0000 0x0001) 0x402081B3 = some (0xFFFF, 0x0104) := by decide +kernel
/-- R96. -/
theorem test_xor : regPc 3 (two 0x0F0F 0x00FF) 0x0020C1B3 = some (0x0FF0, 0x0104) := by decide +kernel
/-- R-ALU-8. -/
theorem test_or : regPc 3 (two 0x8000 0x0001) 0x0020E1B3 = some (0x8001, 0x0104) := by decide +kernel
/-- R98. -/
theorem test_and : regPc 3 (two 0x0FF0 0x3C3C) 0x0020F1B3 = some (0x0C30, 0x0104) := by decide +kernel
/-- R99. -/
theorem test_sll : regPc 3 (two 0x0001 0x0013) 0x002091B3 = some (0x0008, 0x0104) := by decide +kernel
/-- R-ALU-11. -/
theorem test_sll_by_16 : regPc 3 (two 0x0001 0x0010) 0x002091B3 = some (0x0001, 0x0104) := by decide +kernel
/-- R100. -/
theorem test_srl : regPc 3 (two 0x8000 0x000F) 0x0020D1B3 = some (0x0001, 0x0104) := by decide +kernel
/-- R-ALU-13. -/
theorem test_srl_by_16 : regPc 3 (two 0x8000 0x0010) 0x0020D1B3 = some (0x8000, 0x0104) := by decide +kernel
/-- R101. -/
theorem test_sra : regPc 3 (two 0x8000 0x0004) 0x4020D1B3 = some (0xF800, 0x0104) := by decide +kernel
/-- R-ALU-17. -/
theorem test_sra_by_16 : regPc 3 (two 0x8000 0x0010) 0x4020D1B3 = some (0x8000, 0x0104) := by decide +kernel
/-- R102. -/
theorem test_slt : regPc 3 (two 0xFFFF 0x0001) 0x0020A1B3 = some (0x0001, 0x0104) := by decide +kernel
/-- R-ALU-19. -/
theorem test_slt_equal : regPc 3 (two 0x0005 0x0005) 0x0020A1B3 = some (0x0000, 0x0104) := by decide +kernel
/-- R103. -/
theorem test_sltu : regPc 3 (two 0xFFFF 0x0001) 0x0020B1B3 = some (0x0000, 0x0104) := by decide +kernel
/-- R-ALU-21. -/
theorem test_sltu_below : regPc 3 (two 0x0001 0xFFFF) 0x0020B1B3 = some (0x0001, 0x0104) := by decide +kernel
/-- R105. -/
theorem test_addi : regPc 3 (two 0x0000 0x0000) 0xBFF08193 = some (0xFFFF, 0x0104) := by decide +kernel
/-- I-ALU-1. -/
theorem test_addi_wraps : regPc 3 (two 0xFC01 0x0000) 0x3FF08193 = some (0x0000, 0x0104) := by decide +kernel
/-- R106. -/
theorem test_xori : regPc 3 (two 0x1234 0x0000) 0xBFF0C193 = some (0xEDCB, 0x0104) := by decide +kernel
/-- I-ALU-5. -/
theorem test_xori_positive : regPc 3 (two 0xFFFF 0x0000) 0x3FF0C193 = some (0xFC00, 0x0104) := by decide +kernel
/-- R107. -/
theorem test_ori : regPc 3 (two 0x0012 0x0000) 0x8000E193 = some (0xFC12, 0x0104) := by decide +kernel
/-- R108. -/
theorem test_andi : regPc 3 (two 0xFFFF 0x0000) 0x3FF0F193 = some (0x03FF, 0x0104) := by decide +kernel
/-- I-ALU-8. -/
theorem test_andi_negative : regPc 3 (two 0xFFFF 0x0000) 0x8000F193 = some (0xFC00, 0x0104) := by decide +kernel
/-- R109. -/
theorem test_slli : regPc 3 (two 0x0003 0x0000) 0x00F09193 = some (0x8000, 0x0104) := by decide +kernel
/-- R110. -/
theorem test_srli : regPc 3 (two 0x8000 0x0000) 0x00F0D193 = some (0x0001, 0x0104) := by decide +kernel
/-- R111. -/
theorem test_srai : regPc 3 (two 0x8000 0x0000) 0x40F0D193 = some (0xFFFF, 0x0104) := by decide +kernel
/-- R112. -/
theorem test_slti : regPc 3 (two 0x8000 0x0000) 0xBFF0A193 = some (0x0001, 0x0104) := by decide +kernel
/-- I-ALU-20. -/
theorem test_slti_equal : regPc 3 (two 0x03FF 0x0000) 0x3FF0A193 = some (0x0000, 0x0104) := by decide +kernel
/-- R113. -/
theorem test_sltiu : regPc 3 (two 0x8000 0x0000) 0xBFF0B193 = some (0x0001, 0x0104) := by decide +kernel
/-- R113. -/
theorem test_sltiu_equal : regPc 3 (two 0xFFFF 0x0000) 0xBFF0B193 = some (0x0000, 0x0104) := by decide +kernel
/-- R114. -/
theorem test_li : regPc 3 (two 0x0000 0x0000) 0xBCFB81B7 = some (0xBEEF, 0x0104) := by decide +kernel
/-- R117. -/
theorem test_mul : regPc 3 (two 0x1234 0x0100) 0x022081B3 = some (0x3400, 0x0104) := by decide +kernel
/-- R118. -/
theorem test_mulh : regPc 3 (two 0x8000 0x8000) 0x022091B3 = some (0x4000, 0x0104) := by decide +kernel
/-- MULDIV-5. -/
theorem test_mulh_mixed : regPc 3 (two 0x8000 0x7FFF) 0x022091B3 = some (0xC000, 0x0104) := by decide +kernel
/-- R119. -/
theorem test_mulhsu : regPc 3 (two 0xFFFF 0xFFFF) 0x0220A1B3 = some (0xFFFF, 0x0104) := by decide +kernel
/-- MULDIV-8. -/
theorem test_mulhsu_positive : regPc 3 (two 0x7FFF 0xFFFF) 0x0220A1B3 = some (0x7FFE, 0x0104) := by decide +kernel
/-- R120. -/
theorem test_mulhu : regPc 3 (two 0xFFFF 0xFFFF) 0x0220B1B3 = some (0xFFFE, 0x0104) := by decide +kernel
/-- R121. -/
theorem test_div : regPc 3 (two 0xFFF9 0x0002) 0x0220C1B3 = some (0xFFFD, 0x0104) := by decide +kernel
/-- MULDIV-13. -/
theorem test_div_overflow : regPc 3 (two 0x8000 0xFFFF) 0x0220C1B3 = some (0x8000, 0x0104) := by decide +kernel
/-- R122. -/
theorem test_divu : regPc 3 (two 0xFFFF 0x0002) 0x0220D1B3 = some (0x7FFF, 0x0104) := by decide +kernel
/-- MULDIV-17. -/
theorem test_divu_by_zero : regPc 3 (two 0x1234 0x0000) 0x0220D1B3 = some (0xFFFF, 0x0104) := by decide +kernel
/-- R123. -/
theorem test_rem : regPc 3 (two 0xFFF9 0x0002) 0x0220E1B3 = some (0xFFFF, 0x0104) := by decide +kernel
/-- MULDIV-20. -/
theorem test_rem_by_zero : regPc 3 (two 0xFFF9 0x0000) 0x0220E1B3 = some (0xFFF9, 0x0104) := by decide +kernel
/-- R124. -/
theorem test_remu : regPc 3 (two 0xFFFF 0x0010) 0x0220F1B3 = some (0x000F, 0x0104) := by decide +kernel
/-- MULDIV-24. -/
theorem test_remu_by_zero : regPc 3 (two 0x1234 0x0000) 0x0220F1B3 = some (0x1234, 0x0104) := by decide +kernel
/-- R136. -/
theorem test_beq : regPc 1 (two 0x0005 0x0005) 0xFE208CE3 = some (0x0005, 0x00F8) := by decide +kernel
/-- L1-8. -/
theorem test_beq_not_taken : regPc 1 (two 0x0005 0x0006) 0xFE208CE3 = some (0x0005, 0x0104) := by decide +kernel
/-- R137. -/
theorem test_bne : regPc 1 (two 0x0001 0x0002) 0xFE209CE3 = some (0x0001, 0x00F8) := by decide +kernel
/-- CT-6. -/
theorem test_bne_not_taken : regPc 1 (two 0x0005 0x0005) 0xFE209CE3 = some (0x0005, 0x0104) := by decide +kernel
/-- R138. -/
theorem test_blt : regPc 1 (two 0xFFFF 0x0000) 0x0020C663 = some (0xFFFF, 0x010C) := by decide +kernel
/-- CT-9. -/
theorem test_blt_not_taken : regPc 1 (two 0x7FFF 0x8000) 0x0020C863 = some (0x7FFF, 0x0104) := by decide +kernel
/-- R139. -/
theorem test_bge : regPc 1 (two 0x0000 0xFFFF) 0x0020D663 = some (0x0000, 0x010C) := by decide +kernel
/-- CT-11. -/
theorem test_bge_equal : regPc 1 (two 0x0003 0x0003) 0x0020D863 = some (0x0003, 0x0110) := by decide +kernel
/-- R140. -/
theorem test_bltu : regPc 1 (two 0x0000 0xFFFF) 0x0020E663 = some (0x0000, 0x010C) := by decide +kernel
/-- CT-14. -/
theorem test_bltu_not_taken : regPc 1 (two 0x8000 0x7FFF) 0x0020E863 = some (0x8000, 0x0104) := by decide +kernel
/-- R141. -/
theorem test_bgeu : regPc 1 (two 0xFFFF 0x0000) 0x0020F663 = some (0xFFFF, 0x010C) := by decide +kernel
/-- CT-16. -/
theorem test_bgeu_not_taken : regPc 1 (two 0x0000 0x0001) 0x0020F863 = some (0x0000, 0x0104) := by decide +kernel
/-- R142, L1-10. -/
theorem test_jal : regPc 1 (two 0x0000 0x0000) 0x010000EF = some (0x0104, 0x0110) := by decide +kernel
/-- CT-23. -/
theorem test_jalr_source_is_destination : regPc 1 (two 0x0400 0x0000) 0x008080E7 = some (0x0104, 0x0408) := by decide +kernel
/-- CT-21. -/
theorem test_jalr_odd_target : regPc 1 (two 0x0000 0x0201) 0x000100E7 = some (0x0104, 0x0201) := by decide +kernel
/-- CT-19: the link and the target wrap. -/
theorem test_jal_wraps : regPc 1 (machine tc 0xFFFC [] []) 0x008000EF = some (0x0000, 0x0004) := by decide +kernel
/-- R129, LS-2. -/
theorem test_lb : regPc 3 (machine tc 0x0100 [(2, 0x0200)] [(0x0200, 0x80)]) 0x00010183 = some (0xFF80, 0x0104) := by
  decide +kernel
/-- LS-4: the address wraps. -/
theorem test_lb_wraps : regPc 3 (machine tc 0x0100 [] [(0xFFFF, 0x81)]) 0xBFF10183 = some (0xFF81, 0x0104) := by decide +kernel
/-- R130. -/
theorem test_lbu : regPc 3 (machine tc 0x0100 [(2, 0x0200)] [(0x0200, 0x80)]) 0x00014183 = some (0x0080, 0x0104) := by
  decide +kernel
/-- R131, LS-6. -/
theorem test_lw : regPc 3 (machine tc 0x0100 [(2, 0x0200)] [(0x0204, 0x34), (0x0205, 0x12)]) 0x00412183 =
    some (0x1234, 0x0104) := by decide +kernel
/-- LS-7: HALF_ORDER = BIG. -/
theorem test_lw_big : regPc 3 (machine tcBig 0x0100 [(2, 0x0200)] [(0x0204, 0x34), (0x0205, 0x12)]) 0x00412183 =
    some (0x3412, 0x0104) := by decide +kernel
/-- R132, LS-11. -/
theorem test_sb : memPc (two 0xABCD 0x0000) 0xFC1F8123 = some ([(0xFFFF, 0xCD)], 0x0104) := by decide +kernel
/-- R133, LS-12. -/
theorem test_sw : memPc (two 0x1234 0x0200) 0x00122123 = some ([(0x0204, 0x34), (0x0205, 0x12)], 0x0104) := by decide +kernel
/-- LS-13: HALF_ORDER = BIG. -/
theorem test_sw_big : memPc (machine tcBig 0x0100 [(1, 0x1234), (2, 0x0200)] []) 0x00122123 =
    some ([(0x0204, 0x12), (0x0205, 0x34)], 0x0104) := by decide +kernel

/-! ## x0 under both policies (L2.8), odd addresses (R46), the decode failure (R149) -/

/-- X0-1 and X0-3. -/
theorem test_x0_hardwired :
    regPc 0 (two 0x0001 0) 0x00508013 = some (0x0000, 0x0104) ∧ regPc 0 (two 0 0) 0x0100006F = some (0x0000, 0x0110) := by
  decide +kernel
/-- X0-1 and X0-3. -/
theorem test_x0_ordinary :
    regPc 0 (machine tcOrdinary 0x0100 [(1, 0x0001)] []) 0x00508013 = some (0x0006, 0x0104) ∧
    regPc 0 (machine tcOrdinary 0x0100 [] []) 0x0100006F = some (0x0104, 0x0110) := by decide +kernel
/-- X0-2: a hard-wired x0 reads 0 whatever the launch draws for it (R35). -/
theorem test_x0_read :
    regPc 3 (machine tc 0x0100 [(0, 0x1234)] []) 0x000001B3 = some (0x0000, 0x0104) ∧
    regPc 3 (machine tcOrdinary 0x0100 [(0, 0x1234)] []) 0x000001B3 = some (0x2468, 0x0104) := by decide +kernel
/-- R46, by the three values of HALF_MISALIGNED, at 0xFFFF: SPLIT_WRAP joins bytes 0xFFFF and 0x0000. -/
theorem test_lw_at_0xFFFF :
    stopOn (machine (tcMisaligned .stuck) 0x0100 [(2, 0xFFFF)] []) 0x00012183 = some (.halfStuck 0xFFFF) ∧
    stopOn (machine (tcMisaligned .fault) 0x0100 [(2, 0xFFFF)] []) 0x00012183 = some (.halfPlatformFault 0xFFFF) ∧
    regPc 3 (machine (tcMisaligned .splitWrap) 0x0100 [(2, 0xFFFF)] [(0, 0x12), (0xFFFF, 0x34)]) 0x00012183 =
      some (0x1234, 0x0104) := by decide +kernel
/-- R46: SW under SPLIT_WRAP at 0xFFFF. -/
theorem test_sw_at_0xFFFF :
    memPc (machine (tcMisaligned .splitWrap) 0x0100 [(1, 0x1234), (2, 0xFFFF)] []) 0x00102123 =
      some ([(0, 0x12), (0xFFFF, 0x34)], 0x0104) := by decide +kernel
/-- R148 and R149: the whole outcome is the word. -/
theorem test_decode_failure : stopOn (two 1 2) 0x40008193 = some (.decodeFail 0x40008193) := by decide +kernel

/-! ## The fetch and the loader -/

/-- A placed word is the very next one to run, from the reset state (assumption 8). -/
theorem test_placed_word_runs :
    (match step (State.reset.withFetchWord 32 0xBCFB81B7) with
     | .next t => (t.readReg 3, t.pc) == (0xBEEF, 4)
     | _ => false) = true := by decide +kernel
/-- With nothing placed the first step finds no word (assumption 8). -/
theorem test_reset_alone : step State.reset = .fault (.noFetchWord 0) := rfl
/-- R54: a word fetched from data memory after a store to one of its bytes: seen when coherent, no defined result when not. -/
theorem test_fetch_coherence :
    ((machine (tcFetch .little .noWord true) 0x0100 [] []).writeByte 0x0103 0x02).fetch = .ok 0x02000000 ∧
    ((machine (tcFetch .little .noWord false) 0x0100 [] []).writeByte 0x0103 0x02).fetch =
      .error (.incoherentFetch 0x0100) := by
  exact ⟨rfl, rfl⟩
/-- D15: a PC that is no multiple of 4, under both rules; BIG puts the first byte in the high bits. -/
theorem test_fetch_unaligned :
    (machine (tcFetch .little .noWord true) 0x0102 [] []).fetch = .error (.noFetchWord 0x0102) ∧
    (machine (tcFetch .big .bytesAtPc true) 0xFFFE [] [(0xFFFE, 1), (0xFFFF, 2), (0, 3), (1, 4)]).fetch =
      .ok 0x01020304 := by
  exact ⟨rfl, rfl⟩
/-- R161: the loop stops before it fetches. -/
theorem test_loop_stops : runLoop 0 5 State.reset = .atStop State.reset := by decide +kernel
/-- R92: the assembler's spelling. -/
theorem test_assembly :
    assemblyText (.sb 1 2 0x7FF) = "SB x1, -1(x2)" ∧ assemblyText (.beq 1 2 0x1FF8) = "BEQ x1, x2, -8" ∧
    assemblyText (.add 3 1 2) = "ADD x3, x1, x2" := by decide +kernel
/-! ## Witnesses: the hypotheses of each obligation hold together somewhere, one for each clause -/

/-- The dest and zero clauses of `WroteReg`, used by every statement of a register result: a hard-wired x0 and an ordinary one,
and another register. -/
theorem witness_WroteReg :
    (two 1 2).cfg.x0Policy = .hardwiredZero ∧ (machine tcOrdinary 0 [] []).cfg.x0Policy = .ordinary ∧
    ((31 : Reg) ≠ 0) := by decide +kernel

/-- `DivIs` and `RemIs`: the zero divisor, the overflow pair, and a pair next to it. -/
theorem witness_DivideTruncatesAndNeverTraps :
    DivIs 0x8000 0x0000 (divSigned 0x8000 0x0000) ∧ DivIs 0x8000 0xFFFF (divSigned 0x8000 0xFFFF) ∧
    DivIs 0x8000 0x0001 (divSigned 0x8000 0x0001) ∧ DivIs 0x7FFF 0xFFFF (divSigned 0x7FFF 0xFFFF) ∧
    (two 1 0).readReg 2 = 0 ∧ (two 1 0xFFFF).readReg 2 ≠ 0 := by
  unfold DivIs; decide +kernel

theorem witness_RemainderOfDividendSign :
    RemIs 0x8000 0x0000 (remSigned 0x8000 0x0000) ∧ RemIs 0x8000 0xFFFF (remSigned 0x8000 0xFFFF) ∧
    RemIs 0x8001 0xFFFF (remSigned 0x8001 0xFFFF) ∧ RemIs 0xFFF9 0x0002 (remSigned 0xFFF9 0x0002) := by
  unfold RemIs; decide +kernel

/-- R125's three cases: an ordinary pair, the overflow pair, the zero divisor. -/
theorem witness_QuotientAndRemainderRecombine :
    ((0x0002 : Word) ≠ 0 ∧ ¬((0xFFF9 : Word) = 0x8000 ∧ (0x0002 : Word) = 0xFFFF)) ∧
    (sint 0xFFF9 = sint 0x0002 * sint (divSigned 0xFFF9 0x0002) + sint (remSigned 0xFFF9 0x0002)) ∧
    ((0x8000 : Word) = 0xFFFF * divSigned 0x8000 0xFFFF + remSigned 0x8000 0xFFFF) ∧
    ((0x8000 : Word) = 0 * divSigned 0x8000 0 + remSigned 0x8000 0) := by decide +kernel

/-- A machine with 0xFFFF in x2, under each value of HALF_MISALIGNED. -/
def odd (m : HalfMisaligned) : State := machine (tcMisaligned m) 0x0100 [(1, 0x1234), (2, 0xFFFF)] [(0, 0x12), (0xFFFF, 0x34)]

/-- HalfOk at the last even address, and at 0xFFFF under SPLIT_WRAP; odd addresses under STUCK and FAULT. -/
theorem witness_LoadWordFollowsOrderAndAlignment :
    (odd .stuck).HalfOk (address ((odd .stuck).readReg 2) 0x7FF) ∧
    (odd .splitWrap).HalfOk (address ((odd .splitWrap).readReg 2) 0) ∧
    ((address ((odd .stuck).readReg 2) 0).toNat % 2 = 1 ∧ (odd .stuck).cfg.halfMisaligned = .stuck) ∧
    ((address ((odd .fault).readReg 2) 0).toNat % 2 = 1 ∧ (odd .fault).cfg.halfMisaligned = .fault) := by
  unfold State.HalfOk; decide +kernel

theorem witness_StoreByteWritesOneByte :
    Memory.wf (odd .stuck).mem = true ∧ effectiveAddress ((odd .stuck).readReg 2) 0 = 0xFFFF := by decide +kernel

theorem witness_StoreWordFollowsOrderAndAlignment :
    Memory.wf (odd .stuck).mem = true ∧ (odd .stuck).HalfOk (effectiveAddress ((odd .stuck).readReg 2) 0x7FF) ∧
    Memory.wf (odd .splitWrap).mem = true ∧ (odd .splitWrap).HalfOk (effectiveAddress ((odd .splitWrap).readReg 2) 0) ∧
    ((effectiveAddress ((odd .stuck).readReg 2) 0).toNat % 2 = 1 ∧ (odd .stuck).cfg.halfMisaligned = .stuck) ∧
    (Memory.wf (odd .fault).mem = true ∧ (effectiveAddress ((odd .fault).readReg 2) 0).toNat % 2 = 1 ∧
      (odd .fault).cfg.halfMisaligned = .fault) := by
  unfold State.HalfOk; decide +kernel

/-- SW at 0xFFFE, and at 0xFFFF under SPLIT_WRAP. -/
theorem witness_StoreThenLoadReturnsValue :
    (Memory.wf (two 0x8001 0).mem = true ∧ ∃ t, exec (.sw 1 2 0x7FE) (two 0x8001 0) = .next t) ∧
    (Memory.wf (odd .splitWrap).mem = true ∧ ∃ t, exec (.sw 1 2 0) (odd .splitWrap) = .next t) := by
  exact ⟨⟨by decide +kernel, _, rfl⟩, ⟨by decide +kernel, _, rfl⟩⟩

/-- Both HalfOk clauses, and a hard-wired x0 as destination at an odd address that stops. -/
theorem witness_LoadStoreOverlapReadsFirst :
    Memory.wf (odd .stuck).mem = true ∧ (odd .stuck).cfg.x0Policy = .hardwiredZero ∧
    (odd .stuck).HalfOk (address ((odd .stuck).readReg 2) 0x7FF) ∧
    ¬(odd .stuck).HalfOk (address ((odd .stuck).readReg 2) 0) := by
  unfold State.HalfOk; decide +kernel

/-- SB and SW, with coherent fetches and without. -/
theorem witness_StoresAreNotedWhenIncoherent :
    (∃ t, storeOf (two 1 2) (.sb 1 2 0) = some (2, 1) ∧ exec (.sb 1 2 0) (two 1 2) = .next t ∧ t.storedTo = []) ∧
    (∃ t, storeOf (machine (tcFetch .little .noWord false) 0 [] []) (.sw 1 2 0x7FE) = some (0xFFFE, 2) ∧
      exec (.sw 1 2 0x7FE) (machine (tcFetch .little .noWord false) 0 [] []) = .next t ∧ t.storedTo = [0xFFFE, 0xFFFF]) := by
  exact ⟨⟨_, by decide +kernel, rfl, by decide +kernel⟩, ⟨_, by decide +kernel, rfl, by decide +kernel⟩⟩

/-- The three branch statements: the least and the greatest even offset, taken and not taken, signed and unsigned. -/
theorem witness_branches :
    evenOffset 0x1000 = true ∧ evenOffset 0x0FFE = true ∧
    branchGoes (two 1 1) ((two 1 1).readReg 1 = (two 1 1).readReg 2) 0x1000 = 0xF100 ∧
    branchGoes (two 1 2) ((two 1 2).readReg 1 = (two 1 2).readReg 2) 0x1000 = 0x0104 ∧
    branchGoes (two 0x8000 0x7FFF) (sint ((two 0x8000 0x7FFF).readReg 1) < sint ((two 0x8000 0x7FFF).readReg 2)) 16 = 0x0110 ∧
    branchGoes (two 0x8000 0x7FFF) (uint ((two 0x8000 0x7FFF).readReg 1) < uint ((two 0x8000 0x7FFF).readReg 2)) 16 = 0x0104 := by
  decide +kernel

theorem witness_DecodeOfEncodeIsIdentity : Instr.wf (.beq 31 0 0x1000) = true ∧ Instr.wf (.sb 1 2 0x7FF) = true := by decide

theorem witness_EncodeOfDecodeIsIdentity : decode 0x80208063 = some (.beq 1 2 0x1000) := by decide +kernel

/-- A pattern of 32 symbols, and a word that agrees with it and one that does not. -/
theorem witness_MatcherComparesEveryFixedPosition :
    (reRowS .sb 0).pattern.length = 32 ∧ Matches 0xFC1F8123 (reRowS .sb 0).pattern = true ∧
    Matches 0xFE1F8123 (reRowS .sb 0).pattern = false := by decide +kernel

/-- RE is a checked table with a row that matches, and its reverse is a permutation of it. -/
theorem witness_DecodeTotalExclusiveAndOrderFree :
    reRowR .add 0 0 ∈ reChecked.val ∧ Matches 0x002081B3 (reRowR .add 0 0).pattern = true ∧
    List.Perm re.reverse reChecked.val := by
  exact ⟨by decide +kernel, by decide +kernel, List.reverse_perm re⟩

/-- A table with a pattern of 31 symbols; RE is accepted. -/
theorem witness_StartUpRefusesMalformedTable :
    (∃ row ∈ reWith .add fun r => { r with pattern := r.pattern.tail }, row.pattern.length ≠ 32) ∧
    re.firstError = none := by decide +kernel

/-- RE has a row of each of the three formats, beside a load. -/
theorem witness_AcceptedTableStoreBaseScatterAndEvenOffset :
    reRowS .sb 0 ∈ reChecked.val ∧ (reRowS .sb 0).mnemonic.format = .s ∧ reRowI .lb 0 0b0000011 ∈ reChecked.val ∧
    (reRowI .lb 0 0b0000011).mnemonic.format = .i ∧ reRowB .beq 0 ∈ reChecked.val ∧
    (reRowB .beq 0).mnemonic.format = .b := by decide +kernel

/-- N = 1 and N = 16, the top bit clear and set. -/
theorem witness_SignExtensionFormula :
    sext (1#1) = 0xFFFF ∧ sext (0#1) = 0x0000 ∧ sext (0x8000#16) = 0x8000 ∧ sint (sext (0x400#11)) = -1024 := by decide

theorem witness_RegisterFileFollowsX0Policy :
    (two 1 2).cfg.x0Policy = .hardwiredZero ∧ (two 1 2).readReg 0 = 0 ∧
    (machine tcOrdinary 0 [] []).cfg.x0Policy = .ordinary ∧
    ((machine tcOrdinary 0 [] []).writeReg 0 5).readReg 0 = 5 ∧ ((31 : Reg) ≠ 0) ∧ ((0 : Reg) ≠ 31) := by decide +kernel

/-- The last byte of memory, and its neighbour modulo 2^16. -/
theorem witness_ByteReadGivesLatestWrite :
    Memory.wf (odd .stuck).mem = true ∧ ((0 : Word) ≠ 0xFFFF) ∧
    ((odd .stuck).writeByte 0xFFFF 0).readByte 0xFFFF = 0 ∧ ((odd .stuck).writeByte 0xFFFF 0).readByte 0 = 0x12 := by
  decide +kernel

/-- Both orders at 0xFFFE. -/
theorem witness_HalfwordBytesLieInOrder :
    Memory.wf (two 1 2).mem = true ∧ (0xFFFE : Word).toNat % 2 = 0 ∧ (two 1 2).cfg.halfOrder = .little ∧
    Memory.wf (machine tcBig 0 [] [(0xFFFE, 1)]).mem = true ∧ (machine tcBig 0 [] [(0xFFFE, 1)]).cfg.halfOrder = .big := by
  decide +kernel

/-- The three values at 0xFFFF. -/
theorem witness_MisalignedHalfwordFollowsParameter :
    (0xFFFF : Word).toNat % 2 = 1 ∧ Memory.wf (odd .stuck).mem = true ∧ Memory.wf (odd .fault).mem = true ∧
    Memory.wf (odd .splitWrap).mem = true ∧ (odd .stuck).cfg.halfMisaligned = .stuck ∧
    (odd .fault).cfg.halfMisaligned = .fault ∧ (odd .splitWrap).cfg.halfMisaligned = .splitWrap := by decide +kernel

/-- ADD completes in two states that agree on x1 and x2, the PC, memory and platform, and differ in x4. -/
theorem witness_InstructionReadsAndWritesAsListed :
    (∃ t, exec (.add 3 1 2) (two 1 2) = .next t) ∧
    (∀ r ∈ srcsOf (.add 3 1 2), ((two 1 2).writeReg 4 9).readReg r = (two 1 2).readReg r) ∧
    ((two 1 2).writeReg 4 9).pc = (two 1 2).pc ∧ ((two 1 2).writeReg 4 9).mem = (two 1 2).mem ∧
    ((two 1 2).writeReg 4 9).cfg = (two 1 2).cfg ∧ ((two 1 2).writeReg 4 9).storedTo = (two 1 2).storedTo ∧
    ((two 1 2).writeReg 4 9).readReg 4 ≠ (two 1 2).readReg 4 := by
  exact ⟨⟨_, rfl⟩, by decide +kernel⟩

/-- A branch, JAL, JALR and a load complete. -/
theorem witness_PcGoesWhereTheInstructionSays :
    (∃ t, exec (.beq 1 2 8) (two 1 1) = .next t ∧ t.pc = 0x0108) ∧ (∃ t, exec (.jal 1 8) (two 1 1) = .next t ∧ t.pc = 0x0108) ∧
    (∃ t, exec (.jalr 1 2 0) (two 1 7) = .next t ∧ t.pc = 7) ∧ (∃ t, exec (.lb 1 2 0) (two 1 7) = .next t ∧ t.pc = 0x0104) := by
  exact ⟨⟨_, rfl, by decide +kernel⟩, ⟨_, rfl, by decide +kernel⟩, ⟨_, rfl, by decide +kernel⟩, ⟨_, rfl, by decide +kernel⟩⟩

/-- An instruction that is no store, SB, and SW at 0xFFFF under SPLIT_WRAP. -/
theorem witness_OnlyStoresChangeMemory :
    (∃ t, exec (.add 3 1 2) (two 1 2) = .next t ∧ storeOf (two 1 2) (.add 3 1 2) = none) ∧
    (∃ t, exec (.sb 1 2 0) (odd .stuck) = .next t ∧ storeOf (odd .stuck) (.sb 1 2 0) = some (0xFFFF, 1)) ∧
    (∃ t, exec (.sw 1 2 0) (odd .splitWrap) = .next t ∧ storeOf (odd .splitWrap) (.sw 1 2 0) = some (0xFFFF, 2)) := by
  exact ⟨⟨_, rfl, rfl⟩, ⟨_, rfl, by decide +kernel⟩, ⟨_, rfl, by decide +kernel⟩⟩

/-- An odd halfword access that stops, and one that does not. -/
theorem witness_HandlersNeverReject :
    exec (.lw 3 2 0) (odd .stuck) = .fault (.halfStuck 0xFFFF) ∧ ¬(odd .stuck).HalfOk 0xFFFF ∧
    ∃ t, exec (.lw 3 2 0) (odd .splitWrap) = .next t := by
  exact ⟨rfl, by unfold State.HalfOk; decide +kernel, _, rfl⟩

/-- A machine with one word placed at its PC. -/
def placed (w : IWord) : State := (two 0xFFFF 1).placeWord w

theorem witness_UnmatchedWordIsDecodeFail :
    (placed 0x40008193).fetch = .ok 0x40008193 ∧ decode 0x40008193 = none ∧ (placed 0x40008193).pc ≠ 0 := by
  exact ⟨rfl, by decide +kernel, by decide +kernel⟩

/-- A word that decodes, and a fetch that stops. -/
theorem witness_StepRunsDecodedInstruction :
    (placed 0x002081B3).fetch = .ok 0x002081B3 ∧ decode 0x002081B3 = some (.add 3 1 2) ∧
    State.reset.fetch = .error (.noFetchWord 0) := by
  exact ⟨rfl, by decide +kernel, rfl⟩

/-- The step of the placed word completes: also the premise of the statements over a next state of `stepWith`. -/
theorem witness_stepWith_next :
    ∃ t, stepWith reChecked (placed 0x002081B3) = .next t ∧ step (placed 0x002081B3) = .next t ∧
      (placed 0x002081B3).nextInstr = some (.add 3 1 2) ∧ t.readReg 3 = 0 ∧ t.pc = 0x0104 := by
  exact ⟨_, rfl, rfl, by decide +kernel, by decide +kernel, by decide +kernel⟩

/-- The image clauses of the fetch: with a word at the PC, and without. -/
theorem witness_FetchReadsItsSource_image :
    ((placed 0x002081B3).cfg.fetch = .programImage ∧
      Image.find (placed 0x002081B3).image (placed 0x002081B3).pc.toNat = some 0x002081B3) ∧
    (State.reset.cfg.fetch = .programImage ∧ Image.find State.reset.image State.reset.pc.toNat = none) :=
  ⟨⟨rfl, rfl⟩, rfl, rfl⟩

/-- A machine that fetches from data memory. -/
def fetching (u : UnalignedFetch) (coherent : Bool) (pc : Word) : State := machine (tcFetch .big u coherent) pc [] []

/-- The data memory clauses: aligned at 0xFFFC and coherent; unaligned at 0xFFFE under both rules; not coherent and nothing
stored; not coherent and the word's last byte, at 0x0001, stored to. -/
theorem witness_FetchReadsItsSource_memory :
    ((fetching .noWord true 0xFFFC).cfg.fetch = .dataMemory .big .noWord ∧ (0xFFFC : Word).toNat % 4 = 0 ∧
      (fetching .noWord true 0xFFFC).cfg.fetchCoherent = true) ∧
    ((fetching .bytesAtPc false 0xFFFE).cfg.fetch = .dataMemory .big .bytesAtPc ∧
      (∀ a ∈ fetchAddresses 0xFFFE, a.toNat ∉ (fetching .bytesAtPc false 0xFFFE).storedTo)) ∧
    (((fetching .bytesAtPc false 0xFFFE).writeByte 1 7).cfg.fetchCoherent = false ∧
      (∃ a ∈ fetchAddresses 0xFFFE, a.toNat ∈ ((fetching .bytesAtPc false 0xFFFE).writeByte 1 7).storedTo)) ∧
    ((fetching .noWord true 0xFFFE).cfg.fetch = .dataMemory .big .noWord ∧ (0xFFFE : Word).toNat % 4 ≠ 0) :=
  ⟨⟨rfl, rfl, rfl⟩, ⟨rfl, fun _ _ => List.not_mem_nil⟩, ⟨rfl, 1, by decide +kernel, List.mem_singleton.mpr rfl⟩, rfl,
    by decide⟩

/-- At STOP_PC; away from it with a step that completes; away from it with one that faults; a run that ends at STOP_PC. -/
theorem witness_RunLoopStopsBeforeFetch :
    State.reset.pc = 0 ∧ (placed 0x002081B3).pc ≠ 0 ∧ (∃ t, step (placed 0x002081B3) = .next t) ∧
    (placed 0x40008193).pc ≠ 0 ∧ step (placed 0x40008193) = .fault (.decodeFail 0x40008193) ∧
    (∃ t, runLoop 0x0104 1 (placed 0x002081B3) = .atStop t) := by
  exact ⟨rfl, by decide +kernel, ⟨_, rfl⟩, by decide +kernel, rfl, ⟨_, rfl⟩⟩

/-- A launch under each policy, canonical. -/
def someLaunch (p : X0Policy) : Launch where
  cfg := { tc with x0Policy := p }
  initRegs := Vector.replicate 32 0x1234
  resetPc := 0x0100
  initMem := [(0, 0x12), (0xFFFF, 0x34)]
  image := [(0x0100, 0x000001B3)]

theorem witness_LaunchTakesItsInputs :
    (someLaunch .hardwiredZero).cfg.x0Policy = .hardwiredZero ∧ (someLaunch .ordinary).cfg.x0Policy = .ordinary ∧
    (State.launch (someLaunch .hardwiredZero)).readReg 0 = 0 ∧ (State.launch (someLaunch .ordinary)).readReg 0 = 0x1234 ∧
    (State.launch (someLaunch .hardwiredZero)).readReg 31 = 0x1234 := by decide +kernel

theorem witness_ResetMeetsInvariant (p : X0Policy) : LaunchOk (someLaunch p) := ⟨rfl, rfl⟩

/-- A state that meets the invariant and takes a step. -/
theorem witness_StepKeepsInvariant :
    StateInv (State.launch (someLaunch .hardwiredZero)) ∧
    ∃ t, stepWith reChecked (State.launch (someLaunch .hardwiredZero)) = .next t :=
  ⟨⟨rfl, rfl, rfl, fun _ => rfl⟩, _, rfl⟩

/-- A reachable state that is not the start. -/
theorem witness_ReachableStatesKeepPlatform :
    LaunchOk (someLaunch .hardwiredZero) ∧ (someLaunch .hardwiredZero).cfg.x0Policy = .hardwiredZero ∧
    ∃ t, ReachableFrom (someLaunch .hardwiredZero) t ∧ t.pc = 0x0104 :=
  ⟨⟨rfl, rfl⟩, rfl, _, .step .start rfl, rfl⟩

/-- A hard-wired x0 whose slot holds something else, in a step that reads x0 and completes. -/
theorem witness_HardwiredSlotIsNeverSeen :
    (State.launch (someLaunch .hardwiredZero)).cfg.x0Policy = .hardwiredZero ∧
    ((State.launch (someLaunch .hardwiredZero)).withSlot0 0x5555).regs[0] = 0x5555 ∧
    ∃ t, stepWith reChecked ((State.launch (someLaunch .hardwiredZero)).withSlot0 0x5555) = .next t ∧ t.readReg 3 = 0 :=
  ⟨rfl, rfl, _, rfl, rfl⟩

/-- An aligned PC and one that is not. -/
theorem witness_PlacedWordIsFetched :
    Memory.wf (two 1 2).mem = true ∧ (two 1 2).pc.toNat % 4 = 0 ∧
    Memory.wf (machine (tcFetch .little .noWord false) 0xFFFE [] []).mem = true ∧
    (machine (tcFetch .little .noWord false) 0xFFFE [] []).pc.toNat % 4 ≠ 0 := by decide +kernel

end Sys2Proof.Tests
end

section
/-! PROOFS. Registers: facts about the register port (R15, R16, R31) beside those of Laws/Registers.lean. -/

namespace Sys2Proof.Machine

theorem hardwired_of_ne_zero (s : State) {r : Reg} (h : r ≠ 0) : s.hardwired r = false := by
  rw [Bool.eq_false_iff, ne_eq, State.hardwired_iff]
  exact fun hr => h hr.2

theorem hardwired_of_ordinary {s : State} (r : Reg) (h : s.cfg.x0Policy = .ordinary) : s.hardwired r = false := by
  simp [State.hardwired, h]

theorem hardwired_eq_false {s : State} {r : Reg} (h : r ≠ 0 ∨ s.cfg.x0Policy = .ordinary) : s.hardwired r = false :=
  h.elim (hardwired_of_ne_zero s) (hardwired_of_ordinary r)

theorem hardwired_congr {s s' : State} (h : s'.cfg = s.cfg) (r : Reg) : s'.hardwired r = s.hardwired r := by
  rw [State.hardwired, State.hardwired, h]

theorem zero_ne_toNat {r : Reg} (h : r ≠ 0) : 0 ≠ r.toNat := fun e => h (BitVec.eq_of_toNat_eq e.symm)

theorem writeReg_of_hardwired {s : State} {r : Reg} (v : Word) (h : s.hardwired r = true) : s.writeReg r v = s := by
  rw [State.writeReg, if_pos h]

theorem readReg_zero_of_hardwiredZero {s : State} (h : s.cfg.x0Policy = .hardwiredZero) : s.readReg 0 = 0 :=
  State.readReg_hardwired s 0 ((State.hardwired_iff s 0).2 ⟨h, rfl⟩)

/-- The destination reads alike after one write in two states of one platform: the value, or a hard-wired zero. -/
theorem readReg_writeReg_self_congr {s s' : State} (h : s'.cfg = s.cfg) (r : Reg) (v : Word) :
    (s'.writeReg r v).readReg r = (s.writeReg r v).readReg r := by
  rw [State.readReg_writeReg, State.readReg_writeReg, hardwired_congr h]
  cases hw : s.hardwired r with
  | false => simp
  | true => simp [State.readReg_hardwired s r hw, State.readReg_hardwired s' r ((hardwired_congr h r).trans hw)]

end Sys2Proof.Machine
end

section
/-! PROOFS. Steps and actions. `Action` is what an instruction does once its sources are read; `exec_sharesAction` says for all
41 instructions at once that it depends on nothing else (R11, R18), which the noninterference statements need. Invariants and
frames rest on `exec_cases` alone. -/

namespace Sys2Proof.Machine

/-! ## The steps that complete or stop -/

theorem stepWith_of_fetch_ok {e : CheckedEnc} {s : State} {w : IWord} (h : s.fetch = .ok w) :
    stepWith e s = coreStepWith e w s := by
  rw [stepWith, h]

theorem stepWith_of_fetch_error {e : CheckedEnc} {s : State} {f : Fault} (h : s.fetch = .error f) :
    stepWith e s = .fault f := by
  rw [stepWith, h]

theorem coreStepWith_of_some {e : CheckedEnc} {w : IWord} {i : Instr} (s : State) (h : decodeWith e.val w = some i) :
    coreStepWith e w s = exec i s := by
  rw [coreStepWith, h]

theorem coreStepWith_of_none {e : CheckedEnc} {w : IWord} (s : State) (h : decodeWith e.val w = none) :
    coreStepWith e w s = .fault (.decodeFail w) := by
  rw [coreStepWith, h, raiseDecodeFail]

/-- A step that completes has run an instruction: only a handler answers a next state. -/
theorem exec_of_stepWith_next {e : CheckedEnc} {s t : State} (h : stepWith e s = .next t) : ∃ i, exec i s = .next t := by
  cases hf : s.fetch with
  | error f => rw [stepWith_of_fetch_error hf] at h; cases h
  | ok w =>
    rw [stepWith_of_fetch_ok hf] at h
    cases hd : decodeWith e.val w with
    | none => rw [coreStepWith_of_none s hd] at h; cases h
    | some i => exact ⟨i, by rwa [coreStepWith_of_some s hd] at h⟩

/-- What a step that completes has done to the state, over any table. -/
theorem effect_of_stepWith_next {e : CheckedEnc} {s t : State} (h : stepWith e s = .next t) : ∃ i, Effect i s t := by
  obtain ⟨i, hexec⟩ := exec_of_stepWith_next h
  exact ⟨i, exec_cases i s t hexec⟩

/-- A halfword store that nothing stops is two byte stores. -/
theorem eq_of_writeHalf_ok {s u : State} {a v : Word} (h : s.writeHalf a v = .ok u) :
    u = (s.writeByte a (firstByte s.cfg.halfOrder v)).writeByte (nextByte a) (secondByte s.cfg.halfOrder v) := by
  unfold State.writeHalf at h
  split at h
  · cases h
  · exact (Except.ok.inj h).symm

/-! ## What an instruction does once its sources are read -/

/-- One effect with every operand a value: no register, memory byte or parameter is left to read. -/
inductive Action where
  | write (rd : Reg) (v t : Word)
  | storeByte (a : Word) (v : Byte)
  | storeHalf (a : Word) (b0 b1 : Byte)
  | goTo (t : Word)
  | stop (f : Fault)

/-- The outcome of an action in a state. -/
def Action.run : Action → State → Result
  | .write rd v t, s => .next ((s.writeReg rd v).writePc t)
  | .storeByte a v, s => .next ((s.writeByte a v).advance 4)
  | .storeHalf a b0 b1, s => .next (((s.writeByte a b0).writeByte (nextByte a) b1).advance 4)
  | .goTo t, s => .next (s.writePc t)
  | .stop f, _ => .fault f

/-- The action is one that the tables of R18 and R21 allow the instruction, and a stop is the halfword port's (R46, R151). -/
inductive Action.Fits (i : Instr) (s : State) : Action → Prop where
  | write {rd : Reg} {v t : Word} (hd : destOf i = some rd) (ht : mayGoTo s i t) : Fits i s (.write rd v t)
  | storeByte {a : Word} {v : Byte} (hd : destOf i = none) (ht : mayGoTo s i (s.pc + 4)) : Fits i s (.storeByte a v)
  | storeHalf {a : Word} {b0 b1 : Byte} (hd : destOf i = none) (ht : mayGoTo s i (s.pc + 4)) :
      Fits i s (.storeHalf a b0 b1)
  | goTo {t : Word} (hd : destOf i = none) (ht : mayGoTo s i t) : Fits i s (.goTo t)
  | stop {f : Fault} (a : Word) (hf : f = .halfStuck a ∨ f = .halfPlatformFault a) : Fits i s (.stop f)

/-- The states agree on everything an instruction with the sources `rs` reads: those registers, the PC, memory and the
platform. -/
structure SameInputs (rs : List Reg) (s s' : State) : Prop where
  regs : ∀ r ∈ rs, s'.readReg r = s.readReg r
  pc   : s'.pc = s.pc
  mem  : s'.mem = s.mem
  cfg  : s'.cfg = s.cfg

theorem SameInputs.refl (rs : List Reg) (s : State) : SameInputs rs s s := ⟨fun _ _ => rfl, rfl, rfl, rfl⟩

section
variable {s s' : State} {rs : List Reg} (h : SameInputs rs s s')
include h

theorem SameInputs.readByte (a : Word) : s'.readByte a = s.readByte a := by
  rw [State.readByte, State.readByte, h.mem]

theorem SameInputs.halfStop (a : Word) : s'.halfStop a = s.halfStop a := by
  rw [State.halfStop, State.halfStop, h.cfg]

end

/-- The outcomes `r` and `r'` are those of one action, in `s` and in `s'`. -/
structure BothDo (s s' : State) (r r' : Result) (a : Action) : Prop where
  left  : r = a.run s
  right : r' = a.run s'

section
variable {s s' : State}

theorem opRegReg_bothDo (f : Word → Word → Word) (rd rs1 rs2 : Reg) (h : SameInputs [rs1, rs2] s s') :
    BothDo s s' (opRegReg f rd rs1 rs2 s) (opRegReg f rd rs1 rs2 s')
      (.write rd (f (s.readReg rs1) (s.readReg rs2)) (s.pc + 4)) := by
  refine ⟨rfl, ?_⟩
  rw [opRegReg_eq, h.regs rs1 (by simp), h.regs rs2 (by simp), h.pc]; rfl

theorem opRegImm_bothDo (f : Word → Word → Word) (rd rs1 : Reg) (imm : BitVec 11) (h : SameInputs [rs1] s s') :
    BothDo s s' (opRegImm f rd rs1 imm s) (opRegImm f rd rs1 imm s')
      (.write rd (f (s.readReg rs1) (sext imm)) (s.pc + 4)) := by
  refine ⟨rfl, ?_⟩
  rw [opRegImm_eq, h.regs rs1 (by simp), h.pc]; rfl

theorem opRegShamt_bothDo (f : Word → Fin 16 → Word) (rd rs1 : Reg) (shamt : BitVec 4) (h : SameInputs [rs1] s s') :
    BothDo s s' (opRegShamt f rd rs1 shamt s) (opRegShamt f rd rs1 shamt s')
      (.write rd (f (s.readReg rs1) (shiftOfImm shamt)) (s.pc + 4)) := by
  refine ⟨rfl, ?_⟩
  rw [opRegShamt_eq, h.regs rs1 (by simp), h.pc]; rfl

theorem execLi_bothDo (rd : Reg) (imm : BitVec 16) (h : SameInputs [] s s') :
    BothDo s s' (execLi rd imm s) (execLi rd imm s') (.write rd imm (s.pc + 4)) :=
  ⟨rfl, by rw [← h.pc]; rfl⟩

theorem loadByte_bothDo (ext : Byte → Word) (rd rs1 : Reg) (imm : BitVec 11) (h : SameInputs [rs1] s s') :
    BothDo s s' (loadByte ext rd rs1 imm s) (loadByte ext rd rs1 imm s')
      (.write rd (ext (s.readByte (effectiveAddress (s.readReg rs1) imm))) (s.pc + 4)) := by
  refine ⟨rfl, ?_⟩
  rw [loadByte_eq, h.regs rs1 (by simp), h.readByte, h.pc]; rfl

theorem storeByte_bothDo (rs base : Reg) (imm : BitVec 11) (h : SameInputs [base, rs] s s') :
    BothDo s s' (storeByte rs base imm s) (storeByte rs base imm s')
      (.storeByte (effectiveAddress (s.readReg base) imm) ((s.readReg rs).extractLsb' 0 8)) := by
  refine ⟨rfl, ?_⟩
  rw [storeByte_eq, h.regs base (by simp), h.regs rs (by simp)]; rfl

theorem branchOn_bothDo (rel : Word → Word → Bool) (rs1 rs2 : Reg) (off : BitVec 13) (h : SameInputs [rs1, rs2] s s') :
    BothDo s s' (branchOn rel rs1 rs2 off s) (branchOn rel rs1 rs2 off s')
      (.goTo (if rel (s.readReg rs1) (s.readReg rs2) then branchTarget s.pc off else s.pc + 4)) := by
  refine ⟨branchOn_eq rel rs1 rs2 off s, ?_⟩
  rw [branchOn_eq, h.regs rs1 (by simp), h.regs rs2 (by simp), h.pc]; rfl

theorem execJal_bothDo (rd : Reg) (imm : BitVec 16) (h : SameInputs [] s s') :
    BothDo s s' (execJal rd imm s) (execJal rd imm s')
      (.write rd (linkOf s.pc) (jalTarget s.pc imm)) :=
  ⟨rfl, by rw [← h.pc]; rfl⟩

theorem execJalr_bothDo (rd rs1 : Reg) (imm : BitVec 11) (h : SameInputs [rs1] s s') :
    BothDo s s' (execJalr rd rs1 imm s) (execJalr rd rs1 imm s')
      (.write rd (linkOf s.pc) (jalrTarget (s.readReg rs1) imm)) := by
  refine ⟨rfl, ?_⟩
  rw [execJalr, linkAndJump_eq, h.regs rs1 (by simp), h.pc]; rfl

/-- LW at an address the platform stops: both states stop there, for the same reason. -/
theorem loadHalf_stop_bothDo (rd rs1 : Reg) (imm : BitVec 11) (h : SameInputs [rs1] s s') {f : Fault}
    (hf : s.halfStop (effectiveAddress (s.readReg rs1) imm) = some f) :
    BothDo s s' (loadHalf rd rs1 imm s) (loadHalf rd rs1 imm s') (.stop f) := by
  refine ⟨?_, ?_⟩
  · rw [loadHalf, State.readHalf_stop s _ f hf]; rfl
  · rw [loadHalf, h.regs rs1 (by simp), State.readHalf_stop s' _ f (by rw [h.halfStop, hf])]; rfl

theorem loadHalf_bothDo (rd rs1 : Reg) (imm : BitVec 11) (h : SameInputs [rs1] s s')
    (hn : s.halfStop (effectiveAddress (s.readReg rs1) imm) = none) :
    ∃ v, BothDo s s' (loadHalf rd rs1 imm s) (loadHalf rd rs1 imm s') (.write rd v (s.pc + 4)) := by
  refine ⟨_, loadHalf_ok rd rs1 imm s ((State.halfStop_eq_none_iff s _).1 hn), ?_⟩
  have hr : s'.readReg rs1 = s.readReg rs1 := h.regs rs1 (by simp)
  rw [loadHalf_ok rd rs1 imm s' ((State.halfStop_eq_none_iff s' _).1 (by rw [hr, h.halfStop, hn])), hr, h.cfg, h.pc,
    h.readByte, h.readByte]
  rfl

/-- SW at an address the platform stops. -/
theorem storeHalf_stop_bothDo (rs base : Reg) (imm : BitVec 11) (h : SameInputs [base, rs] s s') {f : Fault}
    (hf : s.halfStop (effectiveAddress (s.readReg base) imm) = some f) :
    BothDo s s' (storeHalf rs base imm s) (storeHalf rs base imm s') (.stop f) := by
  refine ⟨?_, ?_⟩
  · rw [storeHalf, State.writeHalf_stop s _ _ f hf]; rfl
  · rw [storeHalf, h.regs base (by simp), State.writeHalf_stop s' _ _ f (by rw [h.halfStop, hf])]; rfl

theorem storeHalf_ok (rs base : Reg) (imm : BitVec 11) (s : State) (h : s.HalfOk (effectiveAddress (s.readReg base) imm)) :
    storeHalf rs base imm s =
      (Action.storeHalf (effectiveAddress (s.readReg base) imm) (firstByte s.cfg.halfOrder (s.readReg rs))
        (secondByte s.cfg.halfOrder (s.readReg rs))).run s := by
  rw [storeHalf, State.writeHalf_ok s _ _ h]; rfl

theorem storeHalf_bothDo (rs base : Reg) (imm : BitVec 11) (h : SameInputs [base, rs] s s')
    (hn : s.halfStop (effectiveAddress (s.readReg base) imm) = none) :
    ∃ a b0 b1, BothDo s s' (storeHalf rs base imm s) (storeHalf rs base imm s') (.storeHalf a b0 b1) := by
  refine ⟨_, _, _, storeHalf_ok rs base imm s ((State.halfStop_eq_none_iff s _).1 hn), ?_⟩
  have hb : s'.readReg base = s.readReg base := h.regs base (by simp)
  rw [storeHalf_ok rs base imm s' ((State.halfStop_eq_none_iff s' _).1 (by rw [hb, h.halfStop, hn])), hb,
    h.regs rs (by simp), h.cfg]

theorem branch_mayGoTo {pc : Word} {off : BitVec 13} (taken : Bool) :
    (if taken then branchTarget pc off else pc + 4) = pc + 4 ∨
      (if taken then branchTarget pc off else pc + 4) = pc + sext off := by
  cases taken
  · exact .inl rfl
  · exact .inr rfl

/-- R18 and R21: two states that agree on what the instruction reads take the same action, and it is one the tables allow. -/
theorem exec_sharesAction (i : Instr) (h : SameInputs (srcsOf i) s s') :
    ∃ a : Action, BothDo s s' (exec i s) (exec i s') a ∧ a.Fits i s := by
  cases i with
  | add rd rs1 rs2 | sub rd rs1 rs2 | xor rd rs1 rs2 | or rd rs1 rs2 | and rd rs1 rs2 | sll rd rs1 rs2 | srl rd rs1 rs2
  | sra rd rs1 rs2 | slt rd rs1 rs2 | sltu rd rs1 rs2 | mul rd rs1 rs2 | mulh rd rs1 rs2 | mulhsu rd rs1 rs2
  | mulhu rd rs1 rs2 | div rd rs1 rs2 | divu rd rs1 rs2 | rem rd rs1 rs2 | remu rd rs1 rs2 =>
    simp only [exec, execAdd, execSub, execXor, execOr, execAnd, execSll, execSrl, execSra, execSlt, execSltu,
      execMul, execMulh, execMulhsu, execMulhu, execDiv, execDivu, execRem, execRemu]
    exact ⟨_, opRegReg_bothDo _ rd rs1 rs2 h, .write rfl rfl⟩
  | addi rd rs1 imm | xori rd rs1 imm | ori rd rs1 imm | andi rd rs1 imm | slti rd rs1 imm | sltiu rd rs1 imm =>
    simp only [exec, execAddi, execXori, execOri, execAndi, execSlti, execSltiu]
    exact ⟨_, opRegImm_bothDo _ rd rs1 imm h, .write rfl rfl⟩
  | slli rd rs1 shamt | srli rd rs1 shamt | srai rd rs1 shamt =>
    exact ⟨_, opRegShamt_bothDo _ rd rs1 shamt h, .write rfl rfl⟩
  | li rd imm => exact ⟨_, execLi_bothDo rd imm h, .write rfl rfl⟩
  | lb rd rs1 imm | lbu rd rs1 imm => exact ⟨_, loadByte_bothDo _ rd rs1 imm h, .write rfl rfl⟩
  | lw rd rs1 imm =>
    cases hs : s.halfStop (effectiveAddress (s.readReg rs1) imm) with
    | some f => exact ⟨_, loadHalf_stop_bothDo rd rs1 imm h hs, .stop _ (State.halfStop_some s _ f hs)⟩
    | none =>
      obtain ⟨v, hv⟩ := loadHalf_bothDo rd rs1 imm h hs
      exact ⟨_, hv, .write rfl rfl⟩
  | sb rs base imm => exact ⟨_, storeByte_bothDo rs base imm h, .storeByte rfl rfl⟩
  | sw rs base imm =>
    cases hs : s.halfStop (effectiveAddress (s.readReg base) imm) with
    | some f => exact ⟨_, storeHalf_stop_bothDo rs base imm h hs, .stop _ (State.halfStop_some s _ f hs)⟩
    | none =>
      obtain ⟨a, b0, b1, hv⟩ := storeHalf_bothDo rs base imm h hs
      exact ⟨_, hv, .storeHalf rfl rfl⟩
  | beq rs1 rs2 off | bne rs1 rs2 off | blt rs1 rs2 off | bge rs1 rs2 off | bltu rs1 rs2 off | bgeu rs1 rs2 off =>
    exact ⟨_, branchOn_bothDo _ rs1 rs2 off h, .goTo rfl (branch_mayGoTo _)⟩
  | jal rd imm => exact ⟨_, execJal_bothDo rd imm h, .write rfl rfl⟩
  | jalr rd rs1 imm => exact ⟨_, execJalr_bothDo rd rs1 imm h, .write rfl rfl⟩

end

/-- What an instruction does in one state. -/
theorem exec_eq_action (i : Instr) (s : State) : ∃ a : Action, exec i s = a.run s ∧ a.Fits i s := by
  obtain ⟨a, ⟨hs, -⟩, hfit⟩ := exec_sharesAction i (SameInputs.refl (srcsOf i) s)
  exact ⟨a, hs, hfit⟩

end Sys2Proof.Machine
end

section
/-! PROOFS. State, steps and launch (10_state.md): the invariant, the frames, noninterference, and the loader. -/

namespace Sys2Proof.Machine

/-! ## The invariant (O49, O50) -/

section
variable {s : State} (h : StateInv s)
include h

theorem stateInv_writeReg (r : Reg) (v : Word) : StateInv (s.writeReg r v) :=
  ⟨h.memory, h.image, h.stored, fun hp => State.writeReg_slot0 s r v hp (h.x0 hp)⟩

theorem stateInv_writePc (t : Word) : StateInv (s.writePc t) := ⟨h.memory, h.image, h.stored, h.x0⟩

theorem stateInv_advance (d : Word) : StateInv (s.advance d) := stateInv_writePc h _

theorem stateInv_writeByte (a : Word) (v : Byte) : StateInv (s.writeByte a v) where
  memory := Memory.wf_write s.mem a v h.memory
  image  := h.image
  stored := by
    rw [State.writeByte_storedTo]
    split
    · exact h.stored
    · exact Stored.wf_add s.storedTo a h.stored
  x0     := h.x0

theorem stateInv_of_effect {i : Instr} {t : State} (ht : Effect i s t) : StateInv t := by
  cases ht with
  | wrote rd v p _ _ => exact stateInv_writePc (stateInv_writeReg h rd v) p
  | storedByte a v _ _ => exact stateInv_advance (stateInv_writeByte h a v) 4
  | storedHalf a v u _ _ hw =>
    cases eq_of_writeHalf_ok hw
    exact stateInv_advance (stateInv_writeByte (stateInv_writeByte h a _) (nextByte a) _) 4
  | jumped p _ _ => exact stateInv_writePc h p

end

/-- Settles O50: a step that completes has run one instruction, and each update it can have made keeps the invariant. -/
theorem stepKeepsInvariant : Obligations.StepKeepsInvariant := by
  intro e s t hinv hstep
  obtain ⟨i, heffect⟩ := effect_of_stepWith_next hstep
  exact stateInv_of_effect hinv heffect

theorem stateInv_launch {l : Launch} (h : LaunchOk l) : StateInv (State.launch l) where
  memory := h.memory
  image  := h.image
  stored := rfl
  x0     := fun (hp : l.cfg.x0Policy = .hardwiredZero) => by simp [State.launch, hp]

/-- Settles O49: the reset state is a launch from the empty memory and image. -/
theorem resetMeetsInvariant : Obligations.ResetMeetsInvariant :=
  ⟨stateInv_launch ⟨rfl, rfl⟩, fun _ => stateInv_launch⟩

/-! ## The platform (O41, O51) -/

theorem platform_of_effect {i : Instr} {s t : State} (ht : Effect i s t) : t.cfg = s.cfg ∧ t.image = s.image := by
  cases ht with
  | wrote _ _ _ _ _ | storedByte _ _ _ _ | jumped _ _ _ => exact ⟨rfl, rfl⟩
  | storedHalf a v u _ _ hw => cases eq_of_writeHalf_ok hw; exact ⟨rfl, rfl⟩

/-- Settles O41: no effect of an instruction touches the parameters or the image. -/
theorem noStepChangesPlatformOrImage : Obligations.NoStepChangesPlatformOrImage := by
  intro e s t hstep
  obtain ⟨i, heffect⟩ := effect_of_stepWith_next hstep
  exact platform_of_effect heffect

/-- Settles O51, by induction on the steps since the launch. -/
theorem reachableStatesKeepPlatform : Obligations.ReachableStatesKeepPlatform := by
  intro l s hl hreach
  have key : StateInv s ∧ s.cfg = l.cfg ∧ s.image = l.image := by
    induction hreach with
    | start => exact ⟨stateInv_launch hl, rfl, rfl⟩
    | @step s t _ hstep ih =>
      obtain ⟨hinv, hcfg, himage⟩ := ih
      obtain ⟨hcfg', himage'⟩ := noStepChangesPlatformOrImage reChecked s t hstep
      exact ⟨stepKeepsInvariant reChecked s t hinv hstep, hcfg'.trans hcfg, himage'.trans himage⟩
  obtain ⟨hinv, hcfg, himage⟩ := key
  exact ⟨hinv, hcfg, himage, fun hp => readReg_zero_of_hardwiredZero (hcfg ▸ hp)⟩

/-! ## What an instruction reads and writes (O38, O39) -/

/-- R18: only the destination reads otherwise than before. -/
theorem readReg_of_effect {i : Instr} {s t : State} (ht : Effect i s t) {r : Reg} (hr : destOf i ≠ some r) :
    t.readReg r = s.readReg r := by
  cases ht with
  | wrote rd v p hd _ =>
    have hne : r ≠ rd := fun e => hr (e ▸ hd)
    simp [State.readReg_writeReg, hne]
  | storedByte _ _ _ _ | jumped _ _ _ => simp
  | storedHalf a v u _ _ hw => cases eq_of_writeHalf_ok hw; simp

theorem writeByte_storedTo_congr {s s' : State} (hc : s'.cfg = s.cfg) (hst : s'.storedTo = s.storedTo) (a : Word) (v : Byte) :
    (s'.writeByte a v).storedTo = (s.writeByte a v).storedTo := by
  rw [State.writeByte_storedTo, State.writeByte_storedTo, hc, hst]

/-- One action in two states that agree on memory, platform and record. -/
theorem run_congr {i : Instr} {a : Action} {s s' t : State} (hfit : a.Fits i s) (ht : a.run s = .next t) (hpc : s'.pc = s.pc)
    (hm : s'.mem = s.mem) (hc : s'.cfg = s.cfg) (hst : s'.storedTo = s.storedTo) :
    ∃ t', a.run s' = .next t' ∧ t'.pc = t.pc ∧ t'.mem = t.mem ∧ t'.storedTo = t.storedTo ∧
      ∀ r, destOf i = some r → t'.readReg r = t.readReg r := by
  cases hfit with
  | @write rd v p hd _ =>
    cases ht
    refine ⟨_, rfl, rfl, hm, hst, fun r hr => ?_⟩
    obtain rfl : rd = r := Option.some.inj (hd.symm.trans hr)
    exact readReg_writeReg_self_congr hc rd v
  | storeByte hd _ =>
    cases ht
    exact ⟨_, rfl, by simp [hpc], by simp [hm], writeByte_storedTo_congr hc hst _ _, fun r hr => by simp [hd] at hr⟩
  | @storeHalf a b0 b1 hd _ =>
    cases ht
    have hfirst := writeByte_storedTo_congr hc hst a b0
    have hboth := writeByte_storedTo_congr (s := s.writeByte a b0) (s' := s'.writeByte a b0) hc hfirst (nextByte a) b1
    exact ⟨_, rfl, by simp [hpc], by simp [hm], hboth, fun r hr => by simp [hd] at hr⟩
  | goTo hd _ => cases ht; exact ⟨_, rfl, rfl, hm, hst, fun r hr => by simp [hd] at hr⟩
  | stop _ _ => cases ht

/-- Settles O38: the instruction takes one action in both states, and that action writes its destination alone. -/
theorem instructionReadsAndWritesAsListed : Obligations.InstructionReadsAndWritesAsListed := by
  intro i s t hexec
  refine ⟨fun r hr => ?_, fun s' hregs hpc hm hc hst => ?_⟩
  · exact readReg_of_effect (exec_cases i s t hexec) hr
  · obtain ⟨a, ⟨ha, ha'⟩, hfit⟩ := exec_sharesAction i ⟨hregs, hpc, hm, hc⟩
    rw [ha']
    exact run_congr hfit (ha ▸ hexec) hpc hm hc hst

/-- Settles O39: the action goes where R21 says. -/
theorem pcGoesWhereTheInstructionSays : Obligations.PcGoesWhereTheInstructionSays := by
  intro i s t hexec
  obtain ⟨a, ha, hfit⟩ := exec_eq_action i s
  rw [ha] at hexec
  cases hfit with
  | write _ ht | storeByte _ ht | storeHalf _ ht | goTo _ ht => cases hexec; exact ht
  | stop _ _ => cases hexec

/-! ## The slot of a hard-wired x0 (O52) -/

theorem withSlot0_regs (s : State) (v : Word) : (s.withSlot0 v).regs = s.regs.set 0 v := rfl

theorem hardwired_withSlot0 (s : State) (v : Word) (r : Reg) : (s.withSlot0 v).hardwired r = s.hardwired r := rfl

section
variable {s : State} (v : Word) (hp : s.cfg.x0Policy = .hardwiredZero)
include hp

theorem readReg_withSlot0 (r : Reg) : (s.withSlot0 v).readReg r = s.readReg r := by
  by_cases hr : r = 0
  · subst hr
    rw [readReg_zero_of_hardwiredZero hp, readReg_zero_of_hardwiredZero (s := s.withSlot0 v) hp]
  · have hne := zero_ne_toNat hr
    simp [State.readReg, hardwired_withSlot0, hardwired_of_ne_zero s hr, withSlot0_regs, hne]

theorem writeReg_withSlot0 (r : Reg) (x : Word) : (s.withSlot0 v).writeReg r x = (s.writeReg r x).withSlot0 v := by
  by_cases hr : r = 0
  · have hw : s.hardwired r = true := (State.hardwired_iff s r).2 ⟨hp, hr⟩
    rw [writeReg_of_hardwired x hw, writeReg_of_hardwired x (s := s.withSlot0 v) hw]
  · have hne := zero_ne_toNat hr
    rw [State.writeReg, hardwired_withSlot0]
    simp [State.writeReg, hardwired_of_ne_zero s hr, State.withSlot0, Vector.set_comm _ _ hne]

theorem run_withSlot0 (a : Action) : a.run (s.withSlot0 v) = mapNext (fun t => t.withSlot0 v) (a.run s) := by
  cases a with
  | write rd x p => simp only [Action.run, writeReg_withSlot0 v hp, mapNext]; rfl
  | storeByte _ _ | storeHalf _ _ _ | goTo _ | stop _ => rfl

theorem exec_withSlot0 (i : Instr) : exec i (s.withSlot0 v) = mapNext (fun t => t.withSlot0 v) (exec i s) := by
  obtain ⟨a, ⟨ha, ha'⟩, -⟩ :=
    exec_sharesAction i (s := s) (s' := s.withSlot0 v) ⟨fun r _ => readReg_withSlot0 v hp r, rfl, rfl, rfl⟩
  rw [ha, ha', run_withSlot0 v hp]

end

theorem fetch_withSlot0 (s : State) (v : Word) : (s.withSlot0 v).fetch = s.fetch := rfl

/-- Settles O52: the fetch reads no register, and no instruction can tell the slot's values apart. -/
theorem hardwiredSlotIsNeverSeen : Obligations.HardwiredSlotIsNeverSeen := by
  intro e s v hp
  cases hf : s.fetch with
  | error f => rw [stepWith_of_fetch_error hf, stepWith_of_fetch_error ((fetch_withSlot0 s v).trans hf), mapNext]
  | ok w =>
    rw [stepWith_of_fetch_ok hf, stepWith_of_fetch_ok ((fetch_withSlot0 s v).trans hf)]
    cases hd : decodeWith e.val w with
    | none => rw [coreStepWith_of_none _ hd, coreStepWith_of_none _ hd, mapNext]
    | some i => rw [coreStepWith_of_some _ hd, coreStepWith_of_some _ hd, exec_withSlot0 v hp]

/-! ## The loader (O53) -/

/-- D15: the bytes of a word, joined in the order they were taken apart, are the word. -/
theorem joinWord_byteOfWord (order : ByteOrder) (w : IWord) :
    joinWord order (byteOfWord order w 0) (byteOfWord order w 1) (byteOfWord order w 2) (byteOfWord order w 3) = w := by
  apply BitVec.eq_of_toNat_eq
  have := w.isLt
  cases order <;> simp only [joinWord, byteOfWord] <;> erw [toNat_append, toNat_append, toNat_append] <;>
    simp only [BitVec.extractLsb'_toNat, Nat.shiftRight_eq_div_pow] <;> omega

theorem Memory.read_write_word {m : Memory} (h : Memory.wf m = true) (a b : Word) (v : Byte) :
    Memory.read (Memory.write m a.toNat v) b.toNat = if a = b then v else Memory.read m b.toNat := by
  rw [Memory.read_write m h]
  simp only [BitVec.toNat_inj]

theorem placeWord_regs (s : State) (w : IWord) : (s.placeWord w).regs = s.regs := by
  unfold State.placeWord; split <;> rfl

theorem placeWord_pc (s : State) (w : IWord) : (s.placeWord w).pc = s.pc := by
  unfold State.placeWord; split <;> rfl

theorem placeWord_cfg_of_aligned (s : State) (w : IWord) (h : pcAligned s.pc = true) : (s.placeWord w).cfg = s.cfg := by
  unfold State.placeWord
  split
  · rfl
  · simp [h]

/-- A fetch from data memory where the platform reads and no byte has been stored to. -/
theorem fetch_dataMemory {s : State} {order : ByteOrder} {u : UnalignedFetch} (hf : s.cfg.fetch = .dataMemory order u)
    (hread : pcAligned s.pc = true ∨ u = .bytesAtPc) (hclean : s.fetchDirty = false) :
    s.fetch = .ok (s.wordAtPc order) := by
  unfold State.fetch
  rw [hf]
  rcases hread with h | h <;> simp [h, hclean]

section
variable {s : State} {order : ByteOrder} {u : UnalignedFetch} (hf : s.cfg.fetch = .dataMemory order u) (w : IWord)
include hf

theorem placeWord_mem_of_dataMemory : (s.placeWord w).mem =
    Memory.write (Memory.write (Memory.write (Memory.write s.mem s.pc.toNat (byteOfWord order w 0))
      (s.pc + 1).toNat (byteOfWord order w 1)) (s.pc + 2).toNat (byteOfWord order w 2))
      (s.pc + 3).toNat (byteOfWord order w 3) := by
  simp only [State.placeWord, hf, BitVec.add_zero]
  rfl

theorem placeWord_storedTo_of_dataMemory : (s.placeWord w).storedTo =
    s.storedTo.filter fun a => !(fetchAddresses s.pc).any fun b => b.toNat == a := by
  rw [State.placeWord, hf]

theorem fetchDirty_placeWord : (s.placeWord w).fetchDirty = false := by
  simp only [State.fetchDirty, placeWord_pc, placeWord_storedTo_of_dataMemory hf, List.any_eq_false, List.contains_iff_mem,
    List.mem_filter, not_and]
  intro b hb _
  simp only [Bool.not_eq_true', Bool.not_eq_false, List.any_eq_true]
  exact ⟨b, hb, by simp⟩

/-- Where the next fetch reads: as before at an aligned PC, else at the PC itself. -/
theorem placeWord_fetchSource : ∃ u', (s.placeWord w).cfg.fetch = .dataMemory order u' ∧
    (pcAligned s.pc = true ∨ u' = .bytesAtPc) := by
  cases h : pcAligned s.pc with
  | true => exact ⟨u, by rw [placeWord_cfg_of_aligned s w h, hf], .inl rfl⟩
  | false => exact ⟨.bytesAtPc, by simp [State.placeWord, hf, h], .inr rfl⟩

theorem wordAtPc_placeWord (hm : Memory.wf s.mem = true) : (s.placeWord w).wordAtPc order = w := by
  have h1 := Memory.wf_write s.mem s.pc (byteOfWord order w 0) hm
  have h2 := Memory.wf_write _ (s.pc + 1) (byteOfWord order w 1) h1
  have h3 := Memory.wf_write _ (s.pc + 2) (byteOfWord order w 2) h2
  conv_rhs => rw [← joinWord_byteOfWord order w]
  unfold State.wordAtPc State.readByte
  rw [placeWord_pc, placeWord_mem_of_dataMemory hf]
  simp only [Memory.read_write_word h3, Memory.read_write_word h2, Memory.read_write_word h1, Memory.read_write_word hm]
  simp

end

theorem fetch_placeWord (s : State) (w : IWord) (hm : Memory.wf s.mem = true) : (s.placeWord w).fetch = .ok w := by
  cases hf : s.cfg.fetch with
  | programImage => simp [State.placeWord, State.fetch, hf, Image.find_put_self]
  | dataMemory order u =>
    obtain ⟨u', hu, hread⟩ := placeWord_fetchSource hf w
    rw [← placeWord_pc s w] at hread
    rw [fetch_dataMemory hu hread (fetchDirty_placeWord hf w), wordAtPc_placeWord hf w hm]

/-- Settles O53: whichever form FETCH has, it reads back what the loader put. -/
theorem placedWordIsFetched : Obligations.PlacedWordIsFetched := by
  intro s w hm
  exact ⟨fetch_placeWord s w hm, placeWord_regs s w, placeWord_pc s w,
    fun h => placeWord_cfg_of_aligned s w (by simp [pcAligned, h])⟩

end Sys2Proof.Machine
end

section
/-! PROOFS. The ports, the step and the trace (10_state.md sections 1, 2, 4 and 5): the statements of tier 1. -/

namespace Sys2Proof.Machine

open Sys2Proof.Claims

/-- Settles O33: the port's read after write, by whether the index is hard-wired. -/
theorem registerFileFollowsX0Policy : Obligations.RegisterFileFollowsX0Policy := by
  intro s r q v
  refine ⟨fun hp => ⟨readReg_zero_of_hardwiredZero hp, ?_⟩, fun h => ?_, fun hq => ?_⟩
  · exact writeReg_of_hardwired v ((State.hardwired_iff s 0).2 ⟨hp, rfl⟩)
  · rw [State.readReg_writeReg, if_pos ⟨rfl, hardwired_eq_false h⟩]
  · rw [State.readReg_writeReg, if_neg fun hc => hq hc.1]

/-- A move of the PC changes nothing else. -/
theorem went_writePc (s : State) (t : Word) : Went s (s.writePc t) t :=
  ⟨fun _ => rfl, rfl, fun _ => rfl, rfl, rfl, rfl⟩

/-- Settles O34: advance is a move of the PC to a sum of 16-bit words. -/
theorem pcAdvancesModulo65536 : Obligations.PcAdvancesModulo65536 :=
  fun s d => ⟨BitVec.toNat_add s.pc d, went_writePc s (s.pc + d), rfl⟩

/-- R148: only the core's dispatch raises DecodeFail. -/
theorem exec_ne_decodeFail (i : Instr) (s : State) (w : IWord) : exec i s ≠ .fault (.decodeFail w) := by
  obtain ⟨a, ha, hfit⟩ := exec_eq_action i s
  rw [ha]
  cases hfit with
  | write _ _ | storeByte _ _ | storeHalf _ _ | goTo _ _ => nofun
  | stop a hf => rcases hf with rfl | rfl <;> nofun

theorem stepWith_decodeFail {e : CheckedEnc} {s : State} {w : IWord} (hf : s.fetch = .ok w)
    (hd : decodeWith e.val w = none) : stepWith e s = .fault (.decodeFail w) :=
  (stepWith_of_fetch_ok hf).trans (coreStepWith_of_none s hd)

theorem runLoop_of_step_fault {stopPc : Word} {s : State} {f : Fault} (n : Nat) (hpc : s.pc ≠ stopPc)
    (h : step s = .fault f) : runLoop stopPc (n + 1) s = .faulted f s := by
  rw [runLoop, if_neg hpc, h]

/-- Settles O43: DecodeFail comes from the core's dispatch alone. -/
theorem unmatchedWordIsDecodeFail : Obligations.UnmatchedWordIsDecodeFail :=
  ⟨fun _ _ _ => stepWith_decodeFail, exec_ne_decodeFail,
    fun _ _ _ n hf hd hpc => runLoop_of_step_fault n hpc (stepWith_decodeFail hf hd)⟩

theorem stepWith_eq_exec {e : CheckedEnc} {s : State} {w : IWord} {i : Instr} (hf : s.fetch = .ok w)
    (hd : decodeWith e.val w = some i) : stepWith e s = exec i s :=
  (stepWith_of_fetch_ok hf).trans (coreStepWith_of_some s hd)

/-- Settles O44: fetch, decode, then the handler. -/
theorem stepRunsDecodedInstruction : Obligations.StepRunsDecodedInstruction :=
  ⟨fun _ s _ _ hf hd => ⟨stepWith_eq_exec hf hd, coreStepWith_of_some s hd⟩, fun _ _ _ hf hd =>
    stepWith_eq_exec (e := reChecked) hf hd, fun _ _ => stepWith_of_fetch_error⟩

theorem stepTraced_fst (s : State) : (stepTraced s).1 = step s := by
  unfold stepTraced
  cases step s <;> rfl

theorem stepTraced_of_next {s t : State} (h : step s = .next t) :
    stepTraced s = (.next t, s.nextInstr.map fun i => traceRecord i s t) := by
  rw [stepTraced, h]

/-- Settles O47: the record is made after the step from its two states. -/
theorem traceOnlyObserves : Obligations.TraceOnlyObserves := by
  intro s
  refine ⟨stepTraced_fst s, fun t i hstep hi => ⟨traceRecord i s t, ?_, rfl, rfl, rfl, rfl, rfl, rfl⟩⟩
  rw [stepTraced_of_next hstep, hi, Option.map_some]

theorem readReg_launch (l : Launch) {r : Reg} (h : r ≠ 0 ∨ l.cfg.x0Policy = .ordinary) :
    (State.launch l).readReg r = l.initRegs[r.toNat]'(r.isLt) := by
  have hw : (State.launch l).hardwired r = false := hardwired_eq_false h
  rw [State.readReg, if_neg (by simp [hw])]
  rcases h with hr | ho
  · have hne := zero_ne_toNat hr
    unfold State.launch
    split <;> simp [hne]
  · simp [State.launch, ho]

/-- Settles O48: launching changes no input but the slot of a hard-wired x0. -/
theorem launchTakesItsInputs : Obligations.LaunchTakesItsInputs :=
  fun l => ⟨fun _ => readReg_launch l, readReg_zero_of_hardwiredZero (s := State.launch l), rfl, fun _ => rfl, rfl, rfl⟩

end Sys2Proof.Machine
end

section
/-! PROOFS. Memory (20_memory.md): the byte and halfword ports, what an instruction stores, and the fetch. -/

namespace Sys2Proof.Machine

open Sys2Proof.Claims

/-! ## The byte port (O35) -/

theorem readByte_writeByte_self {s : State} (hm : Memory.wf s.mem = true) (a : Word) (v : Byte) :
    (s.writeByte a v).readByte a = v := by
  rw [State.readByte_writeByte s hm, if_pos rfl]

/-- A write of one byte changes no other byte, in canonical form or not. -/
theorem readByte_writeByte_of_ne (s : State) {a b : Word} (v : Byte) (h : b ≠ a) :
    (s.writeByte a v).readByte b = s.readByte b :=
  Memory.read_write_other s.mem a.toNat b.toNat v fun e => h (BitVec.eq_of_toNat_eq e.symm)

/-- Settles O35: the port is a plain memory, and the launch takes its bytes unchanged. -/
theorem byteReadGivesLatestWrite : Obligations.ByteReadGivesLatestWrite :=
  fun s a _ v hm => ⟨readByte_writeByte_self hm a v, readByte_writeByte_of_ne s v, fun _ => rfl⟩

/-! ## The bytes of a halfword (R43) -/

theorem joinHalf_little (b0 b1 : Byte) : joinHalf .little b0 b1 = BitVec.ofNat 16 (b1.toNat * 256 + b0.toNat) := by
  apply BitVec.eq_of_toNat_eq
  have := b0.isLt
  have := b1.isLt
  rw [joinHalf, BitVec.toNat_ofNat]
  erw [toNat_append]
  omega

/-- Big-endian order is little-endian order with the bytes exchanged. -/
theorem joinHalf_big (b0 b1 : Byte) : joinHalf .big b0 b1 = BitVec.ofNat 16 (b0.toNat * 256 + b1.toNat) :=
  joinHalf_little b1 b0

theorem toNat_lowByte (v : Word) : (v.extractLsb' 0 8).toNat = v.toNat % 256 := by
  simp [BitVec.extractLsb'_toNat]

theorem toNat_highByte (v : Word) : (v.extractLsb' 8 8).toNat = v.toNat / 256 := by
  have := v.isLt
  rw [BitVec.extractLsb'_toNat, Nat.shiftRight_eq_div_pow]
  omega

theorem halfLiesAt_iff (t : State) (a v : Word) : HalfLiesAt t a v ↔
    t.readByte a = firstByte t.cfg.halfOrder v ∧ t.readByte (nextByte a) = secondByte t.cfg.halfOrder v := by
  unfold HalfLiesAt
  cases t.cfg.halfOrder <;>
    simp only [firstByte, secondByte, nextByte, ← BitVec.toNat_inj, toNat_lowByte, toNat_highByte]

/-! ## The halfword port where nothing stops it (R43, R44) -/

section
variable {s : State} {a : Word}

theorem readHalf_eq_halfValue (h : s.HalfOk a) : s.readHalf a = .ok (BitVec.ofNat 16 (halfValue s a)) := by
  rw [State.readHalf_ok s a h, halfValue]
  cases s.cfg.halfOrder with
  | little => rw [joinHalf_little]; rfl
  | big => rw [joinHalf_big]; rfl

theorem readHalf_of_halfLiesAt {v : Word} (h : s.HalfOk a) (hv : HalfLiesAt s a v) : s.readHalf a = .ok v := by
  obtain ⟨hfirst, hsecond⟩ := (halfLiesAt_iff s a v).1 hv
  rw [State.readHalf_ok s a h, hfirst, hsecond, joinHalf_bytes]

/-- R44: a byte written over the first half shows there. -/
theorem readHalf_writeByte_first {v : Word} (b : Byte) (hm : Memory.wf s.mem = true) (h : s.HalfOk a)
    (hv : HalfLiesAt s a v) :
    (s.writeByte a b).readHalf a = .ok (joinHalf s.cfg.halfOrder b (secondByte s.cfg.halfOrder v)) := by
  rw [State.readHalf_ok (s.writeByte a b) a h, readByte_writeByte_self hm,
    readByte_writeByte_of_ne s b (nextByte_ne a), ((halfLiesAt_iff s a v).1 hv).2, State.writeByte_cfg]

/-- R44: a byte written over the second half shows there. -/
theorem readHalf_writeByte_second {v : Word} (b : Byte) (hm : Memory.wf s.mem = true) (h : s.HalfOk a)
    (hv : HalfLiesAt s a v) :
    (s.writeByte (nextByte a) b).readHalf a = .ok (joinHalf s.cfg.halfOrder (firstByte s.cfg.halfOrder v) b) := by
  rw [State.readHalf_ok (s.writeByte (nextByte a) b) a h, readByte_writeByte_self hm,
    readByte_writeByte_of_ne s b (nextByte_ne a).symm, ((halfLiesAt_iff s a v).1 hv).1, State.writeByte_cfg]

section
variable {t : State} {v : Word} (hw : s.writeHalf a v = .ok t)
include hw

theorem writeHalf_cfg : t.cfg = s.cfg := by
  cases eq_of_writeHalf_ok hw; rfl

theorem wf_writeHalf (hm : Memory.wf s.mem = true) : Memory.wf t.mem = true := by
  cases eq_of_writeHalf_ok hw
  exact Memory.wf_write _ _ _ (Memory.wf_write _ _ _ hm)

theorem halfLiesAt_writeHalf (hm : Memory.wf s.mem = true) : HalfLiesAt t a v := by
  rw [halfLiesAt_iff, writeHalf_cfg hw, State.readByte_writeHalf s t hm a v hw, State.readByte_writeHalf s t hm a v hw,
    if_neg (nextByte_ne a).symm, if_pos rfl, if_pos rfl]
  exact ⟨rfl, rfl⟩

theorem readByte_writeHalf_of_ne {c : Word} (hc : c ≠ a) (hc' : c ≠ nextByte a) : t.readByte c = s.readByte c := by
  cases eq_of_writeHalf_ok hw
  rw [readByte_writeByte_of_ne _ _ hc', readByte_writeByte_of_ne _ _ hc]

theorem storedTo_writeHalf_of_coherent (hc : s.cfg.fetchCoherent = true) : t.storedTo = s.storedTo := by
  cases eq_of_writeHalf_ok hw
  simp [hc]

theorem mem_storedTo_writeHalf (hc : s.cfg.fetchCoherent = false) (x : Nat) :
    x ∈ t.storedTo ↔ x = (nextByte a).toNat ∨ x = a.toNat ∨ x ∈ s.storedTo := by
  cases eq_of_writeHalf_ok hw
  simp [hc, Stored.mem_add]

end

end

/-- Settles O36: nothing stops an even address, and each byte of the halfword is one byte of memory. -/
theorem halfwordBytesLieInOrder : Obligations.HalfwordBytesLieInOrder := by
  intro s a v b hm heven
  have hs : s.HalfOk a := .inl heven
  obtain ⟨t, hw⟩ : ∃ t, s.writeHalf a v = .ok t := ⟨_, State.writeHalf_ok s a v hs⟩
  have hcfg := writeHalf_cfg hw
  have ht : t.HalfOk a := .inl heven
  have hv := halfLiesAt_writeHalf hw hm
  have hfirst := readHalf_writeByte_first b (wf_writeHalf hw hm) ht hv
  have hsecond := readHalf_writeByte_second b (wf_writeHalf hw hm) ht hv
  rw [hcfg] at hfirst hsecond
  refine ⟨readHalf_eq_halfValue hs, t, hw, hcfg, hv, readHalf_of_halfLiesAt ht hv,
    fun c => readByte_writeHalf_of_ne hw, fun ho => ?_, fun ho => ?_⟩
  · rw [ho, joinHalf_little] at hfirst hsecond
    exact ⟨toNat_lowByte v ▸ hsecond, toNat_highByte v ▸ hfirst⟩
  · rw [ho, joinHalf_big] at hfirst hsecond
    exact ⟨toNat_lowByte v ▸ hfirst, toNat_highByte v ▸ hsecond⟩

/-! ## The halfword port at an odd address (R46) -/

section
variable {s : State} {a : Word} (hodd : a.toNat % 2 = 1)
include hodd

theorem halfStop_of_stuck (h : s.cfg.halfMisaligned = .stuck) : s.halfStop a = some (.halfStuck a) := by
  simp [State.halfStop, getLsbD_zero_eq, hodd, h]

theorem halfStop_of_fault (h : s.cfg.halfMisaligned = .fault) : s.halfStop a = some (.halfPlatformFault a) := by
  simp [State.halfStop, getLsbD_zero_eq, hodd, h]

end

theorem readHalf_writeHalf_stop {s : State} {a : Word} {f : Fault} (v : Word) (h : s.halfStop a = some f) :
    s.readHalf a = .error f ∧ s.writeHalf a v = .error f :=
  ⟨State.readHalf_stop s a f h, State.writeHalf_stop s a v f h⟩

/-- Settles O37: STUCK and FAULT stop the port; SPLIT_WRAP leaves it as at an even address. -/
theorem misalignedHalfwordFollowsParameter : Obligations.MisalignedHalfwordFollowsParameter := by
  intro s a v hm hodd
  refine ⟨fun h => readHalf_writeHalf_stop v (halfStop_of_stuck hodd h),
    fun h => readHalf_writeHalf_stop v (halfStop_of_fault hodd h), fun h => ?_, fun b => ?_⟩
  · have hs : s.HalfOk a := .inr h
    have hw := State.writeHalf_ok s a v hs
    exact ⟨readHalf_eq_halfValue hs, _, hw, halfLiesAt_writeHalf hw hm, fun c => readByte_writeHalf_of_ne hw⟩
  · exact readByte_writeByte_self hm a b

/-! ## What an instruction stores (O19, O40) -/

/-- Settles O40, by what an instruction that completes can have done. -/
theorem onlyStoresChangeMemory : Obligations.OnlyStoresChangeMemory := by
  intro i s t hexec
  cases exec_cases i s t hexec with
  | wrote _ _ _ _ hs | jumped _ _ hs => simp [hs]
  | storedByte a v _ hs =>
    refine ⟨by simp [hs], fun ea hea c hc => ?_, by simp [hs]⟩
    obtain rfl : a = ea := by simpa [hs] using hea
    exact readByte_writeByte_of_ne s v hc
  | storedHalf a v u _ hs hw =>
    refine ⟨by simp [hs], by simp [hs], fun ea hea c hc hc' => ?_⟩
    obtain rfl : a = ea := by simpa [hs] using hea
    exact readByte_writeHalf_of_ne hw hc hc'

/-- Settles O19, by what an instruction that completes can have done. -/
theorem storesAreNotedWhenIncoherent : Obligations.StoresAreNotedWhenIncoherent := by
  intro i s t a n hstore hexec
  cases exec_cases i s t hexec with
  | wrote _ _ _ _ hs | jumped _ _ hs => simp [hs] at hstore
  | storedByte a' v _ hs =>
    obtain ⟨rfl, rfl⟩ : a' = a ∧ 1 = n := by simpa [hs] using hstore
    refine ⟨fun hc => by simp [hc], fun hc x => ?_⟩
    simp [hc, Stored.mem_add, or_comm]
  | storedHalf a' v u _ hs hw =>
    obtain ⟨rfl, rfl⟩ : a' = a ∧ 2 = n := by simpa [hs] using hstore
    refine ⟨fun hc => ?_, fun hc x => ?_⟩
    · rw [State.advance_storedTo, storedTo_writeHalf_of_coherent hw hc]
    · rw [State.advance_storedTo, mem_storedTo_writeHalf hw hc, nextByte]
      tauto

/-! ## The fetch (O45) -/

theorem pcAligned_iff (pc : Word) : pcAligned pc = true ↔ pc.toNat % 4 = 0 := by
  simp [pcAligned]

theorem fetchDirty_iff (s : State) : s.fetchDirty = true ↔ ∃ a ∈ fetchAddresses s.pc, a.toNat ∈ s.storedTo := by
  simp [State.fetchDirty]

/-- D15: the word at the PC is the number its four bytes make. -/
theorem wordAtPc_eq_ofNat (s : State) (order : ByteOrder) : s.wordAtPc order = BitVec.ofNat 32 (wordInMemory s order) := by
  apply BitVec.eq_of_toNat_eq
  have := (s.readByte s.pc).isLt
  have := (s.readByte (s.pc + 1)).isLt
  have := (s.readByte (s.pc + 2)).isLt
  have := (s.readByte (s.pc + 3)).isLt
  cases order <;> simp only [State.wordAtPc, joinWord, wordInMemory, BitVec.toNat_ofNat] <;>
    erw [toNat_append, toNat_append, toNat_append] <;> omega

section
variable {s : State}

theorem fetch_of_listed {w : IWord} (hf : s.cfg.fetch = .programImage) (h : Image.find s.image s.pc.toNat = some w) :
    s.fetch = .ok w := by
  simp [State.fetch, hf, h]

theorem fetch_of_not_listed (hf : s.cfg.fetch = .programImage) (h : Image.find s.image s.pc.toNat = none) :
    s.fetch = .error (.noFetchWord s.pc) := by
  simp [State.fetch, hf, h]

variable {order : ByteOrder}

/-- A fetch at a PC the platform reads at: only a stored byte of a memory that is not coherent stops it (R54). -/
theorem fetch_dataMemory_of_reads {u : UnalignedFetch} (hf : s.cfg.fetch = .dataMemory order u)
    (hread : pcAligned s.pc = true ∨ u = .bytesAtPc) :
    s.fetch = if !s.cfg.fetchCoherent && s.fetchDirty then .error (.incoherentFetch s.pc)
      else .ok (s.wordAtPc order) := by
  unfold State.fetch
  rw [hf]
  rcases hread with h | h <;> simp [h]

theorem fetch_unaligned_noWord (hf : s.cfg.fetch = .dataMemory order .noWord) (h : pcAligned s.pc = false) :
    s.fetch = .error (.noFetchWord s.pc) := by
  simp [State.fetch, hf, h]

end

/-- Settles O45, by the form of FETCH and whether the platform reads at the PC. -/
theorem fetchReadsItsSource : Obligations.FetchReadsItsSource := by
  intro s
  refine ⟨fun hf _ hw => fetch_of_listed hf hw, fetch_of_not_listed, fun order u hf hread => ?_, fun order hf hpc => ?_⟩
  · rw [← pcAligned_iff] at hread
    rw [fetch_dataMemory_of_reads hf hread, ← wordAtPc_eq_ofNat]
    refine ⟨fun hclean => if_neg ?_, fun hc hdirty => if_pos ?_⟩
    · intro hstop
      obtain ⟨hc, hd⟩ := Bool.and_eq_true_iff.1 hstop
      obtain ⟨a, ha, hst⟩ := (fetchDirty_iff s).1 hd
      rcases hclean with hcoh | hnone
      · simp [hcoh] at hc
      · exact hnone a ha hst
    · rw [hc, (fetchDirty_iff s).2 hdirty]; rfl
  · exact fetch_unaligned_noWord hf (by rwa [Bool.eq_false_iff, ne_eq, pcAligned_iff])

end Sys2Proof.Machine
end

section
/-! PROOFS. Tables (30_encoding.md sections 4 and 4a): the matcher, start-up, dispatch over any table that passes start-up, and
the bit positions of its fields. -/

namespace Sys2Proof

/-! ## The matcher (O27) -/

/-- The symbol, where there is one, agrees with the bit (R59). -/
def symFits : Option Sym → Bool → Prop
  | some .zero, b => b = false
  | some .one, b => b = true
  | some .x, _ => True
  | none, _ => True

theorem agreesAt_eq_symFits (w : IWord) (p : Pattern) (i : Nat) :
    Claims.agreesAt w p i = symFits p[31 - i]? (w.getLsbD i) := by
  unfold Claims.agreesAt
  cases p[31 - i]? with
  | none => rfl
  | some s => cases s <;> rfl

theorem matchesNat_singleton (v : Nat) (s : Sym) : MatchesNat v [s] ↔ symFits (some s) (v.testBit 0) := by
  cases s <;> simp [MatchesNat, Pattern.maskNat, Pattern.valueNat, symFits, Nat.and_one_is_mod]

/-- R61 for a pattern of any length: symbol number `length - 1 - i` stands for bit `i`. -/
theorem matchesNat_iff_symFits (p : Pattern) : ∀ v : Nat,
    MatchesNat v p ↔ ∀ i < p.length, symFits p[p.length - 1 - i]? (v.testBit i) := by
  induction p with
  | nil => intro v; simp [MatchesNat, Pattern.maskNat, Pattern.valueNat]
  | cons s rest ih =>
    intro v
    rw [← List.singleton_append, matchesNat_append, matchesNat_singleton, ih, Nat.testBit_div_two_pow, and_comm,
      List.singleton_append, List.length_cons, Nat.forall_lt_succ_right]
    refine and_congr (forall₂_congr fun i hi => ?_) (by simp)
    rw [Nat.testBit_mod_two_pow, decide_eq_true hi, Bool.true_and,
      show rest.length + 1 - 1 - i = rest.length - 1 - i + 1 by omega, List.getElem?_cons_succ]

/-- Settles O27: the first symbol is compared with the top bit and the others by induction. -/
theorem matcherComparesEveryFixedPosition : Obligations.MatcherComparesEveryFixedPosition := by
  intro w p hp
  simp only [matches_iff_nat w p hp, matchesNat_iff_symFits, hp, agreesAt_eq_symFits]
  exact Iff.rfl

/-! ## Start-up (O29) -/

/-- R60. -/
theorem patternsWellFormed_eq_false {e : Enc} {row : EncRow} (hm : row ∈ e) (hl : row.pattern.length ≠ 32) :
    e.patternsWellFormed = false := by
  simpa [Enc.patternsWellFormed] using ⟨row, hm, hl⟩

theorem startUp_of_firstError {e : Enc} {err : EncError} (h : e.firstError = some err) : e.startUp = .error err := by
  unfold Enc.startUp
  split
  next hnone => rw [h] at hnone; cases hnone
  next err' hsome => rw [h] at hsome; cases hsome; rfl

theorem val_of_startUp_ok {e : Enc} {c : CheckedEnc} (h : e.startUp = .ok c) : c.val = e := by
  unfold Enc.startUp at h
  split at h
  · cases h; rfl
  · cases h

/-- Settles O29: the patterns are the first check of start-up. -/
theorem startUpRefusesMalformedTable : Obligations.StartUpRefusesMalformedTable := by
  refine ⟨fun e ⟨row, hm, hl⟩ => startUp_of_firstError ?_, fun e c => val_of_startUp_ok⟩
  simp [Enc.firstError, patternsWellFormed_eq_false hm hl]

/-! ## Dispatch (O28) -/

theorem mnemonic_assemble (row : EncRow) (w : IWord) : (row.assemble w).mnemonic = row.mnemonic := by
  cases h : row.mnemonic <;> simp only [EncRow.assemble, h, Instr.mnemonic]

section
variable {e : Enc} (h : e.exclusive = true) (w : IWord)
include h

/-- R67: no word matches two entries. -/
theorem eq_of_both_match {row other : EncRow} (hr : row ∈ e) (ho : other ∈ e) (hwr : Matches w row.pattern = true)
    (hwo : Matches w other.pattern = true) : row = other :=
  Option.some.inj ((Enc.find_of_matches e h row hr w hwr).symm.trans (Enc.find_of_matches e h other ho w hwo))

/-- R67: the order of the entries does not matter. -/
theorem decodeWith_perm {e' : Enc} (hp : e'.Perm e) : decodeWith e' w = decodeWith e w := by
  cases hd : decodeWith e' w with
  | some i =>
    obtain ⟨row, hm, hw, rfl⟩ := decodeWith_some e' w i hd
    exact (decodeWith_of_matches e h row (hp.mem_iff.1 hm) w hw).symm
  | none =>
    simp only [decodeWith, Option.map_eq_none_iff, List.find?_eq_none] at hd
    symm
    simpa only [decodeWith, Option.map_eq_none_iff, List.find?_eq_none] using fun row hm => hd row (hp.mem_iff.2 hm)

end

/-- Settles O28: all of it follows from the exclusive patterns. -/
theorem decodeTotalExclusiveAndOrderFree : Obligations.DecodeTotalExclusiveAndOrderFree := by
  intro e w
  obtain ⟨-, -, hex, -, -⟩ := Enc.firstError_eq_none e.val e.property
  exact ⟨fun row hm => decodeWith_of_matches e.val hex row hm w, fun row _ => mnemonic_assemble row w,
    fun row hr other ho => eq_of_both_match hex w hr ho, fun e' => decodeWith_perm hex w⟩

/-! ## Where the fields of an accepted table lie (O54) -/

/-- R74: bit 0 of a branch offset is 0 whatever the table. -/
theorem evenOffset_offOf (row : EncRow) (w : IWord) : evenOffset (row.offOf w) = true := by
  rw [evenOffset, EncRow.offOf, BitVec.getLsbD_ofNat, Nat.testBit_zero]
  simp

theorem Layout.isField_iff (l : Layout) (n : Nat) : l.isField n = true ↔ l.rangesOk = true ∧ l.bits.length = n := by
  simp [Layout.isField]

section
variable {n : Nat} {l : Layout} (hl : l.isField n = true)
include hl

theorem bits_getD_lt {k : Nat} (hk : k < n) : l.bits.getD k 0 < 32 := by
  obtain ⟨hranges, hlen⟩ := (l.isField_iff n).1 hl
  rw [← hlen] at hk
  rw [List.getD_eq_getElem _ _ hk]
  exact Layout.bits_lt l hranges _ (List.getElem_mem hk)

/-- The word with one bit set shows where bit `j` of a field lies. -/
theorem getLsbD_field_twoPow {p j : Nat} (hp : p < 32) (hj : j < n) :
    (field n (BitVec.twoPow 32 p) l).getLsbD j = decide (p = l.bits.getD (n - 1 - j) 0) := by
  rw [field_getLsbD n _ l ((l.isField_iff n).1 hl).2 j hj, BitVec.getLsbD_twoPow, decide_eq_true hp, Bool.true_and]

theorem bits_getD_eq_of_field_eq {k : Layout} (hk : k.isField n = true) (h : ∀ w, field n w l = field n w k) {j : Nat}
    (hj : j < n) : l.bits.getD (n - 1 - j) 0 = k.bits.getD (n - 1 - j) 0 := by
  have hp := bits_getD_lt hl (show n - 1 - j < n by omega)
  have hbit := congrArg (·.getLsbD j) (h (BitVec.twoPow 32 (l.bits.getD (n - 1 - j) 0)))
  simpa only [getLsbD_field_twoPow hl hp hj, getLsbD_field_twoPow hk hp hj, decide_true, true_eq_decide_iff] using hbit

/-- R73: two fields at different bit positions read differently on some word. -/
theorem exists_field_ne {k : Layout} (hk : k.isField n = true) (hne : l.bits ≠ k.bits) :
    ∃ w, field n w l ≠ field n w k := by
  by_contra! h
  have hlen := ((l.isField_iff n).1 hl).2
  have hlen' := ((k.isField_iff n).1 hk).2
  refine hne (List.ext_getElem (by omega) fun idx h1 h2 => ?_)
  have := bits_getD_eq_of_field_eq hl hk h (show n - 1 - idx < n by omega)
  rwa [show n - 1 - (n - 1 - idx) = idx by omega, List.getD_eq_getElem _ _ h1, List.getD_eq_getElem _ _ h2] at this

/-- A field that is one contiguous range of the word has its bits at positions that follow each other. -/
theorem bits_getD_of_contiguous {lo : Nat} (h : ∀ w, field n w l = BitVec.ofNat n (w.toNat / 2 ^ lo)) {j : Nat}
    (hj : j < n) : l.bits.getD (n - 1 - j) 0 = j + lo := by
  have hp := bits_getD_lt hl (show n - 1 - j < n by omega)
  have hbit := congrArg (·.getLsbD j) (h (BitVec.twoPow 32 (l.bits.getD (n - 1 - j) 0)))
  simp only [getLsbD_field_twoPow hl hp hj, BitVec.getLsbD_ofNat, Nat.testBit_div_two_pow] at hbit
  rw [← BitVec.getLsbD, BitVec.getLsbD_twoPow] at hbit
  simpa only [decide_true, decide_eq_true hp, decide_eq_true hj, Bool.true_and, true_eq_decide_iff] using hbit

/-- R69: a contiguous field is no scattered one. -/
theorem ranges_le_one_of_contiguous {lo : Nat} (h : ∀ w, field n w l = BitVec.ofNat n (w.toNat / 2 ^ lo)) :
    l.ranges ≤ 1 := by
  have hlen := ((l.isField_iff n).1 hl).2
  refine rangeCount_le_one l.bits fun k hk => ?_
  have h1 := bits_getD_of_contiguous hl h (show n - 1 - k < n by omega)
  have h2 := bits_getD_of_contiguous hl h (show n - 1 - (k + 1) < n by omega)
  rw [show n - 1 - (n - 1 - k) = k by omega] at h1
  rw [show n - 1 - (n - 1 - (k + 1)) = k + 1 by omega] at h2
  omega

end

section
variable {row : EncRow} (h : row.fieldsOk = true)
include h

theorem immField_of_format_s (hf : row.mnemonic.format = .s) : row.imm.isField 11 = true := by
  simp only [EncRow.fieldsOk, hf, Bool.and_eq_true] at h
  obtain ⟨⟨-, himm⟩, -⟩ := h
  exact himm

theorem immField_of_format_i (hf : row.mnemonic.format = .i) : row.imm.isField 11 = true ∧ 2 ≤ row.imm.ranges := by
  simp only [EncRow.fieldsOk, hf, Bool.and_eq_true, decide_eq_true_eq] at h
  obtain ⟨⟨-, himm⟩, hranges⟩ := h
  exact ⟨himm, hranges⟩

end

theorem format_of_load {m : Mnemonic} (h : m = .lb ∨ m = .lbu ∨ m = .lw) : m.format = .i := by
  rcases h with rfl | rfl | rfl <;> rfl

/-- R69 and R73: what the check of the stores says of one store and one load. -/
theorem store_bits_of_storesOk {e : Enc} (h : e.storesOk = true) {row load : EncRow} (hr : row ∈ e)
    (hf : row.mnemonic.format = .s) (hm : load ∈ e)
    (hload : load.mnemonic = .lb ∨ load.mnemonic = .lbu ∨ load.mnemonic = .lw) :
    row.rd.bits = load.rd.bits ∧ row.imm.bits ≠ load.imm.bits := by
  simp only [Enc.storesOk, List.all_eq_true] at h
  have hrow := h row hr
  simp only [hf, bne_self_eq_false, Bool.false_or, List.all_eq_true] at hrow
  have hpair := hrow load hm
  rcases hload with hl | hl | hl <;> simpa [hl] using hpair

/-- Settles O54: equal bit positions are one field, different ones differ on a word with one bit set, and such words show that a
contiguous field is one range. -/
theorem acceptedTableStoreBaseScatterAndEvenOffset : Obligations.AcceptedTableStoreBaseScatterAndEvenOffset := by
  intro e row hr
  obtain ⟨-, -, -, hfields, hstores⟩ := Enc.firstError_eq_none e.val e.property
  refine ⟨fun hs load hm hload => ?_, ?_, fun _ => evenOffset_offOf row⟩
  · obtain ⟨hrd, himm⟩ := store_bits_of_storesOk hstores hr hs hm hload
    have hloadImm := (immField_of_format_i (hfields load hm) (format_of_load hload)).1
    exact ⟨fun w => field_congr 5 w _ _ hrd, exists_field_ne (immField_of_format_s (hfields row hr) hs) hloadImm himm⟩
  · rintro hi ⟨lo, hlo⟩
    obtain ⟨himm, hscattered⟩ := immField_of_format_i (hfields row hr) hi
    have hone := ranges_le_one_of_contiguous himm hlo
    omega

end Sys2Proof
end

section
/-! PROOFS. RE (30_encoding.md sections 5 and 6): the row of each mnemonic, and the two directions of the round trip. -/

namespace Sys2Proof

/-! ## The row of RE for each mnemonic -/

/-- The fixed bits of a row of RE, by its format, at the widths the encoder takes (R83 to R87). -/
inductive RowCode where
  | r (funct7 : BitVec 7) (funct3 : BitVec 3)
  | i (funct3 : BitVec 3) (opcode : BitVec 7)
  | sh (top : BitVec 8) (funct3 : BitVec 3)
  | s (funct3 : BitVec 3)
  | b (funct3 : BitVec 3)
  | u (opcode : BitVec 7)

/-- The row of RE with these fixed bits. -/
def RowCode.row (m : Mnemonic) : RowCode → EncRow
  | .r funct7 funct3 => reRowR m funct7.toNat funct3.toNat
  | .i funct3 opcode => reRowI m funct3.toNat opcode.toNat
  | .sh top funct3 => reRowSh m top.toNat funct3.toNat
  | .s funct3 => reRowS m funct3.toNat
  | .b funct3 => reRowB m funct3.toNat
  | .u opcode => reRowU m opcode.toNat

/-- The fixed bits of each mnemonic's row. -/
def Mnemonic.code : Mnemonic → RowCode
  | .lb => .i 0b000 0b0000011 | .lbu => .i 0b100 0b0000011 | .lw => .i 0b010 0b0000011
  | .sb => .s 0b000 | .sw => .s 0b010
  | .add => .r 0b0000000 0b000 | .sub => .r 0b0100000 0b000 | .xor => .r 0b0000000 0b100 | .or => .r 0b0000000 0b110
  | .and => .r 0b0000000 0b111 | .sll => .r 0b0000000 0b001 | .srl => .r 0b0000000 0b101 | .sra => .r 0b0100000 0b101
  | .slt => .r 0b0000000 0b010 | .sltu => .r 0b0000000 0b011
  | .mul => .r 0b0000001 0b000 | .mulh => .r 0b0000001 0b001 | .mulhsu => .r 0b0000001 0b010
  | .mulhu => .r 0b0000001 0b011 | .div => .r 0b0000001 0b100 | .divu => .r 0b0000001 0b101
  | .rem => .r 0b0000001 0b110 | .remu => .r 0b0000001 0b111
  | .addi => .i 0b000 0b0010011 | .xori => .i 0b100 0b0010011 | .ori => .i 0b110 0b0010011 | .andi => .i 0b111 0b0010011
  | .slli => .sh 0b00000000 0b001 | .srli => .sh 0b00000000 0b101 | .srai => .sh 0b01000000 0b101
  | .slti => .i 0b010 0b0010011 | .sltiu => .i 0b011 0b0010011
  | .li => .u 0b0110111 | .jal => .u 0b1101111
  | .beq => .b 0b000 | .bne => .b 0b001 | .blt => .b 0b100 | .bge => .b 0b101 | .bltu => .b 0b110 | .bgeu => .b 0b111
  | .jalr => .i 0b000 0b1100111

/-- The row of RE that carries the mnemonic. -/
def reRow (m : Mnemonic) : EncRow := m.code.row m

/-- RE lists one row per mnemonic, in R68's order. -/
theorem re_eq_map_reRow : re = Mnemonic.all.map reRow := by decide +kernel

theorem reRow_mem_re (m : Mnemonic) : reRow m ∈ re := by
  rw [re_eq_map_reRow]
  exact List.mem_map_of_mem (by cases m <;> decide)

theorem eq_reRow_of_mem {row : EncRow} (h : row ∈ re) : ∃ m, row = reRow m := by
  rw [re_eq_map_reRow] at h
  obtain ⟨m, -, rfl⟩ := List.mem_map.1 h
  exact ⟨m, rfl⟩

/-! ## From an instruction to its word and back (O25) -/

section
open Laws.EncodeMatchesRow

/-- R77 to R82: the word of an instruction matches its row. -/
theorem matches_encode (i : Instr) : Matches (encode i) (reRow i.mnemonic).pattern = true := by
  cases i with
  | lb rd rs1 imm | lbu rd rs1 imm | lw rd rs1 imm | addi rd rs1 imm | xori rd rs1 imm | ori rd rs1 imm | andi rd rs1 imm
  | slti rd rs1 imm | sltiu rd rs1 imm | jalr rd rs1 imm => exact formatI _ _ _ rd rs1 imm
  | add rd rs1 rs2 | sub rd rs1 rs2 | xor rd rs1 rs2 | or rd rs1 rs2 | and rd rs1 rs2 | sll rd rs1 rs2 | srl rd rs1 rs2
  | sra rd rs1 rs2 | slt rd rs1 rs2 | sltu rd rs1 rs2 | mul rd rs1 rs2 | mulh rd rs1 rs2 | mulhsu rd rs1 rs2
  | mulhu rd rs1 rs2 | div rd rs1 rs2 | divu rd rs1 rs2 | rem rd rs1 rs2 | remu rd rs1 rs2 =>
    exact formatR _ _ _ rd rs1 rs2
  | slli rd rs1 shamt | srli rd rs1 shamt | srai rd rs1 shamt => exact formatSh _ _ _ rd rs1 shamt
  | sb rs base imm | sw rs base imm => exact formatS _ _ rs base imm
  | beq rs1 rs2 off | bne rs1 rs2 off | blt rs1 rs2 off | bge rs1 rs2 off | bltu rs1 rs2 off | bgeu rs1 rs2 off =>
    exact formatB _ _ rs1 rs2 off
  | li rd imm | jal rd imm => exact formatU _ _ rd imm

end

/-- An instruction is its constructor applied to the three operands that were read. -/
theorem eq_of_three_fields {α β γ : Type} {mk : α → β → γ → Instr} {a a' : α} {b b' : β} {c c' : γ}
    (h : a' = a ∧ b' = b ∧ c' = c) : mk a b c = mk a' b' c' := by
  obtain ⟨rfl, rfl, rfl⟩ := h
  rfl

/-- R77 to R82: the row of an instruction reads its operands back, an even offset for a branch. -/
theorem assemble_encode {i : Instr} (hwf : i.wf = true) : (reRow i.mnemonic).assemble (encode i) = i := by
  symm
  cases i with
  | lb rd rs1 imm | lbu rd rs1 imm | lw rd rs1 imm | addi rd rs1 imm | xori rd rs1 imm | ori rd rs1 imm | andi rd rs1 imm
  | slti rd rs1 imm | sltiu rd rs1 imm | jalr rd rs1 imm => exact eq_of_three_fields (fieldsI _ _ _ rd rs1 imm)
  | add rd rs1 rs2 | sub rd rs1 rs2 | xor rd rs1 rs2 | or rd rs1 rs2 | and rd rs1 rs2 | sll rd rs1 rs2 | srl rd rs1 rs2
  | sra rd rs1 rs2 | slt rd rs1 rs2 | sltu rd rs1 rs2 | mul rd rs1 rs2 | mulh rd rs1 rs2 | mulhsu rd rs1 rs2
  | mulhu rd rs1 rs2 | div rd rs1 rs2 | divu rd rs1 rs2 | rem rd rs1 rs2 | remu rd rs1 rs2 =>
    exact eq_of_three_fields (fieldsR _ _ _ rd rs1 rs2)
  | slli rd rs1 shamt | srli rd rs1 shamt | srai rd rs1 shamt => exact eq_of_three_fields (fieldsSh _ _ _ rd rs1 shamt)
  | sb rs base imm | sw rs base imm => exact eq_of_three_fields (fieldsS _ _ rs base imm)
  | beq rs1 rs2 off | bne rs1 rs2 off | blt rs1 rs2 off | bge rs1 rs2 off | bltu rs1 rs2 off | bgeu rs1 rs2 off =>
    exact eq_of_three_fields (fieldsB _ _ rs1 rs2 off hwf)
  | li rd imm | jal rd imm =>
    obtain ⟨hrd, himm⟩ := fieldsU _ _ rd imm
    exact congrArg₂ _ hrd.symm himm.symm

/-- Settles O25: the word matches its row of the exclusive table, and that row reads every operand back. -/
theorem decodeOfEncodeIsIdentity : Obligations.DecodeOfEncodeIsIdentity := by
  intro i hwf
  rw [decode, decodeWith_of_matches re re_exclusive _ (reRow_mem_re i.mnemonic) _ (matches_encode i), assemble_encode hwf]

/-! ## From a word to its instruction and back (O26) -/

theorem wf_assemble (row : EncRow) (w : IWord) : (row.assemble w).wf = true := by
  cases h : row.mnemonic with
  | beq | bne | blt | bge | bltu | bgeu => simp only [EncRow.assemble, h, Instr.wf, evenOffset_offOf]
  | _ => simp only [EncRow.assemble, h, Instr.wf]

theorem toNat_field (n : Nat) (w : IWord) (l : Layout) : (field n w l).toNat = gather w l 0 % 2 ^ n :=
  BitVec.toNat_ofNat _ _

/-- R74: the groups of bits of an even 13-bit offset. -/
theorem offset_groups {off b12 b11 b10to5 b4to1 : Nat} (h : off = 2 * (((b12 * 2 + b11) * 2 ^ 6 + b10to5) * 2 ^ 4 + b4to1))
    (h11 : b11 < 2) (h10 : b10to5 < 2 ^ 6) (h4 : b4to1 < 2 ^ 4) :
    off / 2 ^ 12 = b12 ∧ off / 2 ^ 5 % 2 ^ 6 = b10to5 ∧ off / 2 % 2 ^ 4 = b4to1 ∧ off / 2 ^ 11 % 2 = b11 := by
  omega

/-- R75: the groups of bits of a 16-bit immediate. -/
theorem imm16_groups {imm b15to10 b9to5 b4to0 : Nat} (h : imm = (b15to10 * 2 ^ 5 + b9to5) * 2 ^ 5 + b4to0)
    (h9 : b9to5 < 2 ^ 5) (h4 : b4to0 < 2 ^ 5) :
    imm / 2 ^ 10 = b15to10 ∧ imm % 2 ^ 5 = b4to0 ∧ imm / 2 ^ 5 % 2 ^ 5 = b9to5 := by
  omega

/-- R81: the groups of bits of the offset that a branch row reads, each as the number of the bits it was read from. -/
theorem offOf_reRowB_groups (m : Mnemonic) (funct3 : Nat) (w : IWord) :
    ((reRowB m funct3).offOf w).toNat / 2 ^ 12 = w.toNat / 2 ^ 31 ∧
    ((reRowB m funct3).offOf w).toNat / 2 ^ 5 % 2 ^ 6 = w.toNat / 2 ^ 25 % 2 ^ 6 ∧
    ((reRowB m funct3).offOf w).toNat / 2 % 2 ^ 4 = w.toNat / 2 ^ 8 % 2 ^ 4 ∧
    ((reRowB m funct3).offOf w).toNat / 2 ^ 11 % 2 = w.toNat / 2 ^ 7 % 2 := by
  have hw := w.isLt
  refine offset_groups ?_ (Nat.mod_lt _ (by decide)) (Nat.mod_lt _ (by decide)) (Nat.mod_lt _ (by decide))
  simp only [EncRow.offOf, reRowB, gather, extractBits, BitRange.width, BitVec.toNat_ofNat]
  omega

/-- R82: the groups of bits of the 16-bit immediate that a row of format U reads. -/
theorem imm16Of_reRowU_groups (m : Mnemonic) (opcode : Nat) (w : IWord) :
    ((reRowU m opcode).imm16Of w).toNat / 2 ^ 10 = w.toNat / 2 ^ 26 ∧
    ((reRowU m opcode).imm16Of w).toNat % 2 ^ 5 = w.toNat / 2 ^ 20 % 2 ^ 5 ∧
    ((reRowU m opcode).imm16Of w).toNat / 2 ^ 5 % 2 ^ 5 = w.toNat / 2 ^ 15 % 2 ^ 5 := by
  have hw := w.isLt
  refine imm16_groups ?_ (Nat.mod_lt _ (by decide)) (Nat.mod_lt _ (by decide))
  simp only [EncRow.imm16Of, reRowU, toNat_field, gather, extractBits, BitRange.width]
  omega

section
variable {m : Mnemonic} {funct7 : BitVec 7} {top : BitVec 8} {funct3 : BitVec 3} {opcode : BitVec 7} {w : IWord}

/-- R77: a word that matches a row of format R is the word of the operands the row reads. -/
theorem encodeR_of_matches (h : Matches w (reRowR m funct7.toNat funct3.toNat).pattern = true) :
    encodeR funct7 funct3 ((reRowR m funct7.toNat funct3.toNat).rdOf w) ((reRowR m funct7.toNat funct3.toNat).rs1Of w)
      ((reRowR m funct7.toNat funct3.toNat).rs2Of w) = w := by
  have hw := w.isLt
  have hfunct7 := funct7.isLt
  have hfunct3 := funct3.isLt
  rw [matches_iff_nat _ _ (by simp [reRowR])] at h
  simp (disch := omega) only [reRowR, matchesNat_append, matchesNat_any, matchesNat_fixed, Pattern.length_any,
    Pattern.length_fixed, and_true] at h
  apply BitVec.eq_of_toNat_eq
  simp only [encodeR_toNat, EncRow.rdOf, EncRow.rs1Of, EncRow.rs2Of, reRd, reRs1, reRs2, reRowR, toNat_field, gather,
    extractBits, BitRange.width]
  omega

/-- R78. -/
theorem encodeI_of_matches (h : Matches w (reRowI m funct3.toNat opcode.toNat).pattern = true) :
    encodeI funct3 opcode ((reRowI m funct3.toNat opcode.toNat).rdOf w) ((reRowI m funct3.toNat opcode.toNat).rs1Of w)
      ((reRowI m funct3.toNat opcode.toNat).imm11Of w) = w := by
  have hw := w.isLt
  have hfunct3 := funct3.isLt
  have hopcode := opcode.isLt
  rw [matches_iff_nat _ _ (by simp [reRowI])] at h
  simp (disch := omega) only [reRowI, matchesNat_append, matchesNat_any, matchesNat_fixed, Pattern.length_any,
    Pattern.length_fixed, and_true, true_and] at h
  apply BitVec.eq_of_toNat_eq
  simp only [encodeI_toNat, EncRow.rdOf, EncRow.rs1Of, EncRow.imm11Of, reRd, reRs1, reRowI, toNat_field, gather,
    extractBits, BitRange.width]
  omega

/-- R79. -/
theorem encodeSh_of_matches (h : Matches w (reRowSh m top.toNat funct3.toNat).pattern = true) :
    encodeSh top funct3 ((reRowSh m top.toNat funct3.toNat).rdOf w) ((reRowSh m top.toNat funct3.toNat).rs1Of w)
      ((reRowSh m top.toNat funct3.toNat).shamtOf w) = w := by
  have hw := w.isLt
  have htop := top.isLt
  have hfunct3 := funct3.isLt
  rw [matches_iff_nat _ _ (by simp [reRowSh])] at h
  simp (disch := omega) only [reRowSh, matchesNat_append, matchesNat_any, matchesNat_fixed, Pattern.length_any,
    Pattern.length_fixed, and_true] at h
  apply BitVec.eq_of_toNat_eq
  simp only [encodeSh_toNat, EncRow.rdOf, EncRow.rs1Of, EncRow.shamtOf, reRd, reRs1, reRowSh, toNat_field, gather,
    extractBits, BitRange.width]
  omega

/-- R80. -/
theorem encodeS_of_matches (h : Matches w (reRowS m funct3.toNat).pattern = true) :
    encodeS funct3 ((reRowS m funct3.toNat).rs2Of w) ((reRowS m funct3.toNat).rdOf w)
      ((reRowS m funct3.toNat).imm11Of w) = w := by
  have hw := w.isLt
  have hfunct3 := funct3.isLt
  rw [matches_iff_nat _ _ (by simp [reRowS])] at h
  simp (disch := omega) only [reRowS, matchesNat_append, matchesNat_any, matchesNat_fixed, Pattern.length_any,
    Pattern.length_fixed, and_true, true_and] at h
  apply BitVec.eq_of_toNat_eq
  simp only [encodeS_toNat, EncRow.rdOf, EncRow.rs2Of, EncRow.imm11Of, reRd, reRs2, reRowS, toNat_field, gather,
    extractBits, BitRange.width]
  omega

/-- R81. -/
theorem encodeB_of_matches (h : Matches w (reRowB m funct3.toNat).pattern = true) :
    encodeB funct3 ((reRowB m funct3.toNat).rs1Of w) ((reRowB m funct3.toNat).rs2Of w)
      ((reRowB m funct3.toNat).offOf w) = w := by
  have hw := w.isLt
  have hfunct3 := funct3.isLt
  rw [matches_iff_nat _ _ (by simp [reRowB])] at h
  simp (disch := omega) only [reRowB, matchesNat_append, matchesNat_any, matchesNat_fixed, Pattern.length_any,
    Pattern.length_fixed, and_true, true_and] at h
  apply BitVec.eq_of_toNat_eq
  simp only [encodeB_toNat, offOf_reRowB_groups]
  simp only [EncRow.rs1Of, EncRow.rs2Of, reRs1, reRs2, reRowB, toNat_field, gather, extractBits, BitRange.width]
  omega

/-- R82. -/
theorem encodeU_of_matches (h : Matches w (reRowU m opcode.toNat).pattern = true) :
    encodeU opcode ((reRowU m opcode.toNat).rdOf w) ((reRowU m opcode.toNat).imm16Of w) = w := by
  have hw := w.isLt
  have hopcode := opcode.isLt
  rw [matches_iff_nat _ _ (by simp [reRowU])] at h
  simp (disch := omega) only [reRowU, matchesNat_append, matchesNat_any, matchesNat_fixed, Pattern.length_any,
    Pattern.length_fixed, and_true, true_and] at h
  apply BitVec.eq_of_toNat_eq
  simp only [encodeU_toNat, imm16Of_reRowU_groups]
  simp only [EncRow.rdOf, reRd, reRowU, toNat_field, gather, extractBits, BitRange.width]
  omega

end

/-- R77 to R82: a word that matches the row of a mnemonic is the word of the instruction that row reads. -/
theorem encode_assemble {m : Mnemonic} {w : IWord} (h : Matches w (reRow m).pattern = true) :
    encode ((reRow m).assemble w) = w := by
  cases m with
  | lb | lbu | lw | addi | xori | ori | andi | slti | sltiu | jalr => exact encodeI_of_matches h
  | add | sub | xor | or | and | sll | srl | sra | slt | sltu | mul | mulh | mulhsu | mulhu | div | divu | rem | remu =>
    exact encodeR_of_matches h
  | slli | srli | srai => exact encodeSh_of_matches h
  | sb | sw => exact encodeS_of_matches h
  | beq | bne | blt | bge | bltu | bgeu => exact encodeB_of_matches h
  | li | jal => exact encodeU_of_matches h

/-- Settles O26: a word decodes by the row of some mnemonic, whose pattern and fields fix all 32 bits. -/
theorem encodeOfDecodeIsIdentity : Obligations.EncodeOfDecodeIsIdentity := by
  intro w i hd
  obtain ⟨row, hm, hw, rfl⟩ := decodeWith_some re w i hd
  obtain ⟨m, rfl⟩ := eq_reRow_of_mem hm
  exact ⟨wf_assemble _ w, encode_assemble hw⟩

end Sys2Proof
end

section
/-! PROOFS. The numeric utilities (R63, R64), and that every handler answers (30_encoding.md section 7). -/

namespace Sys2Proof.Machine

/-! ## Sign extension and the arithmetic shift (O31, O32) -/

/-- The bits that a fill with `0xFFFF << n` sets. -/
theorem getLsbD_ones_shiftLeft (n : Nat) {i : Nat} (h : i < 16) : (0xFFFF#16 <<< n).getLsbD i = decide (n ≤ i) := by
  rw [show (0xFFFF#16) = BitVec.allOnes 16 from rfl, BitVec.getLsbD_shiftLeft, BitVec.getLsbD_allOnes,
    decide_eq_true h, decide_eq_true (show i - n < 16 by omega), Bool.true_and, Bool.and_true, ← decide_not]
  simp only [Nat.not_lt]

/-- R63 and R64 fill by an or with ones from bit `n` up, where the sign is 1. -/
theorem getLsbD_fill (v : Word) (sign : Bool) (n : Nat) {i : Nat} (h : i < 16) :
    (v ||| if sign then 0xFFFF#16 <<< n else 0).getLsbD i = (v.getLsbD i || (sign && decide (n ≤ i))) := by
  cases sign
  · simp
  · rw [if_pos rfl, BitVec.getLsbD_or, getLsbD_ones_shiftLeft n h, Bool.true_and]

/-- R63. -/
theorem sext_eq_fill {n : Nat} (v : BitVec n) :
    sext v = v.setWidth 16 ||| if v.getLsbD (n - 1) then 0xFFFF#16 <<< n else 0 := by
  apply BitVec.eq_of_getLsbD_eq
  intro i hi
  rw [getLsbD_fill _ _ n hi, sext, BitVec.getLsbD_signExtend, BitVec.msb_eq_getLsbD_last, BitVec.getLsbD_setWidth,
    decide_eq_true hi, Bool.true_and, Bool.true_and]
  by_cases hin : i < n
  · simp [hin]
  · simp [hin, show n ≤ i by omega]

/-- Settles O31: sign extension is the or with ones above the sign bit, bit by bit. -/
theorem signExtensionFormula : Obligations.SignExtensionFormula := by
  intro n v _ hle
  refine ⟨?_, BitVec.toInt_signExtend_of_le hle⟩
  rw [sext_eq_fill v]
  split
  · rfl
  · exact BitVec.or_zero

/-- R64: the shift is the arithmetic shift of bit vectors. -/
theorem asr_eq_sshiftRight (v : Word) (n : Fin 17) : asr v n = v.sshiftRight n.val := by
  apply BitVec.eq_of_getLsbD_eq
  intro i hi
  rw [asr, getLsbD_fill _ _ _ hi, BitVec.getLsbD_sshiftRight, BitVec.getLsbD_ushiftRight,
    decide_eq_false (show ¬16 ≤ i by omega), Bool.not_false, Bool.true_and]
  by_cases hin : n.val + i < 16
  · simp [hin, show ¬16 - n.val ≤ i by omega]
  · simp [hin, BitVec.getLsbD_of_ge v (n.val + i) (by omega), show 16 - n.val ≤ i by omega]

/-- R64: a right shift of the signed reading rounds down. -/
theorem asr_eq_floor (v : Word) (n : Fin 17) : asr v n = BitVec.ofInt 16 (sint v / 2 ^ n.val) := by
  rw [asr_eq_sshiftRight, ← BitVec.ofInt_toInt (x := v.sshiftRight n.val), BitVec.toInt_sshiftRight,
    Int.shiftRight_eq_div_pow]
  norm_cast

theorem asr_zero (v : Word) : asr v 0 = v := by
  rw [asr_eq_sshiftRight]
  exact BitVec.sshiftRight_zero

theorem asr_sixteen (v : Word) : asr v 16 = if v.getLsbD 15 then 0xFFFF else 0x0000 := by
  have hshift : v >>> (16 : Fin 17).val = 0#16 := BitVec.ushiftRight_eq_zero (Nat.le_refl 16)
  rw [asr, BitVec.msb_eq_getLsbD_last, hshift, BitVec.zero_or]
  rfl

/-- Settles O32: the model's form is the rule's first, and the arithmetic shift of bit vectors divides and rounds down. -/
theorem arithmeticShiftFloors : Obligations.ArithmeticShiftFloors := by
  intro v n
  refine ⟨?_, asr_eq_floor v n, asr_sixteen v, asr_zero v, by decide⟩
  rw [asr, BitVec.msb_eq_getLsbD_last]

/-! ## Every handler answers (O42) -/

/-- R127 and R128: the effective address by integers. -/
theorem effectiveAddress_eq_address (base : Word) (imm : BitVec 11) :
    effectiveAddress base imm = Claims.address base imm := by
  rw [effectiveAddress, Claims.address, BitVec.ofInt_add, BitVec.ofInt_natCast, BitVec.ofNat_toNat, BitVec.setWidth_eq]
  rfl

/-- R91 and R151: an instruction completes, or it is LW or SW and the halfword port stops its access. -/
theorem exec_next_or_halfStop (i : Instr) (s : State) :
    (∃ t, exec i s = .next t) ∨ ∃ a f, s.halfStop a = some f ∧ exec i s = .fault f ∧
      ((∃ rd rs1 imm, i = .lw rd rs1 imm ∧ a = effectiveAddress (s.readReg rs1) imm) ∨
       (∃ rs base imm, i = .sw rs base imm ∧ a = effectiveAddress (s.readReg base) imm)) := by
  cases i with
  | lw rd rs1 imm =>
    cases hs : s.halfStop (effectiveAddress (s.readReg rs1) imm) with
    | none => exact .inl ⟨_, loadHalf_ok rd rs1 imm s ((State.halfStop_eq_none_iff s _).1 hs)⟩
    | some f =>
      have hexec := (loadHalf_stop_bothDo rd rs1 imm (SameInputs.refl _ s) hs).left
      exact .inr ⟨_, f, hs, hexec, .inl ⟨rd, rs1, imm, rfl, rfl⟩⟩
  | sw rs base imm =>
    cases hs : s.halfStop (effectiveAddress (s.readReg base) imm) with
    | none => exact .inl ⟨_, storeHalf_ok rs base imm s ((State.halfStop_eq_none_iff s _).1 hs)⟩
    | some f =>
      have hexec := (storeHalf_stop_bothDo rs base imm (SameInputs.refl _ s) hs).left
      exact .inr ⟨_, f, hs, hexec, .inr ⟨rs, base, imm, rfl, rfl⟩⟩
  | beq rs1 rs2 off | bne rs1 rs2 off | blt rs1 rs2 off | bge rs1 rs2 off | bltu rs1 rs2 off | bgeu rs1 rs2 off =>
    exact .inl ⟨_, branchOn_eq _ rs1 rs2 off s⟩
  | _ => exact .inl ⟨_, rfl⟩

/-- Settles O42: what the halfword port answers at an address it stops is one of the two faults of R46. -/
theorem handlersNeverReject : Obligations.HandlersNeverReject := by
  intro i s
  refine (exec_next_or_halfStop i s).imp_right ?_
  rintro ⟨a, f, hs, hexec, hi⟩
  have hodd : ¬s.HalfOk a := by rw [← State.halfStop_eq_none_iff, hs]; simp
  refine ⟨a, hodd, ?_, by simpa only [effectiveAddress_eq_address] using hi⟩
  rcases State.halfStop_some s a f hs with rfl | rfl
  · exact .inl hexec
  · exact .inr hexec

end Sys2Proof.Machine
end

section
/-! PROOFS. Register-register ALU (40_alu_register.md): the words of format R, the frame of a register result, and the values
of R94 to R103 by integers. -/

namespace Sys2Proof.Machine

open Sys2Proof.Claims

/-! ## The words of format R, and the frame of a register result -/

/-- R77: the encoder's fields lie where the spec's sum puts them. -/
theorem wordR_eq_encodeR (funct7 : BitVec 7) (funct3 : BitVec 3) (rd rs1 rs2 : Reg) :
    wordR funct7.toNat funct3.toNat rd rs1 rs2 = encodeR funct7 funct3 rd rs1 rs2 := by
  rw [wordR, ← encodeR_toNat, BitVec.ofNat_toNat, BitVec.setWidth_eq]

/-- The word of the encoder's own codes decodes to the instruction, by the round trip. -/
theorem decode_wordR (funct7 : BitVec 7) (funct3 : BitVec 3) {rd rs1 rs2 : Reg} {i : Instr} (hwf : i.wf = true)
    (hi : encode i = encodeR funct7 funct3 rd rs1 rs2) : decode (wordR funct7.toNat funct3.toNat rd rs1 rs2) = some i := by
  rw [wordR_eq_encodeR, ← hi, decodeOfEncodeIsIdentity i hwf]

/-- R15, R16 and R18: one register write and one move of the PC, whatever the value and the destination. -/
theorem wroteReg_writeReg_writePc (s : State) (rd : Reg) (v p : Word) :
    WroteReg s ((s.writeReg rd v).writePc p) rd v p where
  dest h     := by rw [State.readReg_writePc, State.readReg_writeReg, if_pos ⟨rfl, hardwired_eq_false h⟩]
  zero h     := readReg_zero_of_hardwiredZero (s := (s.writeReg rd v).writePc p) h
  others r h := by rw [State.readReg_writePc, State.readReg_writeReg, if_neg fun hr => h hr.1]
  pc         := rfl
  memory _   := rfl
  image      := rfl
  storedTo   := rfl
  cfg        := rfl

/-- An instruction that comes to one register write and one move of the PC completes with that value, in any form of it. -/
theorem exec_wroteReg {i : Instr} {s : State} {rd : Reg} {u v p : Word}
    (hexec : exec i s = .next ((s.writeReg rd u).writePc p)) (hv : u = v) :
    ∃ t, exec i s = .next t ∧ WroteReg s t rd v p :=
  ⟨_, hexec, hv ▸ wroteReg_writeReg_writePc s rd u p⟩

/-! ## Values by integers (R94, R95, R99 to R103) -/

/-- R94. -/
theorem add_eq_ofNat (a b : Word) : a + b = BitVec.ofNat 16 (uint a + uint b) := by
  rw [BitVec.ofNat_add, BitVec.ofNat_toNat, BitVec.ofNat_toNat, BitVec.setWidth_eq, BitVec.setWidth_eq]

/-- R95. -/
theorem sub_eq_ofInt (a b : Word) : a - b = BitVec.ofInt 16 ((uint a : Int) - uint b) := by
  rw [Int.sub_eq_add_neg, BitVec.ofInt_add, BitVec.ofInt_neg, BitVec.ofInt_natCast, BitVec.ofInt_natCast,
    BitVec.ofNat_toNat, BitVec.ofNat_toNat, BitVec.setWidth_eq, BitVec.setWidth_eq, BitVec.sub_eq_add_neg]

/-- R99, for every amount below 16. -/
theorem shiftLeft_eq_ofNat (a : Word) (n : Fin 16) : shiftLeft a n = BitVec.ofNat 16 (uint a * 2 ^ n.val) := by
  apply BitVec.eq_of_toNat_eq
  rw [shiftLeft, BitVec.toNat_shiftLeft, Nat.shiftLeft_eq, BitVec.toNat_ofNat]

/-- R100. -/
theorem shiftRight_eq_ofNat (a : Word) (n : Fin 16) : shiftRight a n = BitVec.ofNat 16 (uint a / 2 ^ n.val) := by
  rw [← Nat.shiftRight_eq_div_pow, ← BitVec.toNat_ushiftRight, BitVec.ofNat_toNat, BitVec.setWidth_eq]
  rfl

/-- R101: the arithmetic shift of R64 at an amount below 16. -/
theorem shiftRightArith_eq_floor (a : Word) (n : Fin 16) :
    shiftRightArith a n = BitVec.ofInt 16 (sint a / 2 ^ n.val) :=
  asr_eq_floor a n.castSucc

theorem setWord_decide (holds : Prop) [Decidable holds] : setWord (decide holds) = setTo holds := by
  simp only [setWord, setTo, decide_eq_true_eq]

/-- R102. -/
theorem setWord_relLt (a b : Word) : setWord (relLt a b) = setTo (sint a < sint b) := setWord_decide _

/-- R103. -/
theorem setWord_relLtu (a b : Word) : setWord (relLtu a b) = setTo (uint a < uint b) := setWord_decide _

/-! ## The statements (O1 to O4) -/

/-- Settles O1: addition and subtraction of 16-bit words are those of the integers modulo 2^16. -/
theorem addAndSubWrapModulo65536 : Obligations.AddAndSubWrapModulo65536 :=
  fun _ _ _ _ =>
    ⟨⟨decode_wordR 0b0000000 0b000 rfl rfl, exec_wroteReg rfl (add_eq_ofNat _ _)⟩,
      ⟨decode_wordR 0b0100000 0b000 rfl rfl, exec_wroteReg rfl (sub_eq_ofInt _ _)⟩⟩

/-- Settles O2: the value written is the bit vector operation, and that acts on each bit alone. -/
theorem xorOrAndActBitByBit : Obligations.XorOrAndActBitByBit :=
  fun s rd rs1 rs2 =>
    ⟨⟨decode_wordR 0b0000000 0b100 rfl rfl, _, _, opRegReg_eq _ rd rs1 rs2 s, wroteReg_writeReg_writePc s rd _ _,
        fun _ => BitVec.getLsbD_xor⟩,
      ⟨decode_wordR 0b0000000 0b110 rfl rfl, _, _, opRegReg_eq _ rd rs1 rs2 s, wroteReg_writeReg_writePc s rd _ _,
        fun _ => BitVec.getLsbD_or⟩,
      ⟨decode_wordR 0b0000000 0b111 rfl rfl, _, _, opRegReg_eq _ rd rs1 rs2 s, wroteReg_writeReg_writePc s rd _ _,
        fun _ => BitVec.getLsbD_and⟩⟩

/-- Settles O3: each shift by integers, at the amount R93 takes from the rs2 value. -/
theorem registerShiftsUseLowFourBits : Obligations.RegisterShiftsUseLowFourBits :=
  fun _ _ _ _ =>
    ⟨⟨decode_wordR 0b0000000 0b001 rfl rfl, exec_wroteReg rfl (shiftLeft_eq_ofNat _ (shiftOfReg _))⟩,
      ⟨decode_wordR 0b0000000 0b101 rfl rfl, exec_wroteReg rfl (shiftRight_eq_ofNat _ (shiftOfReg _))⟩,
      ⟨decode_wordR 0b0100000 0b101 rfl rfl, exec_wroteReg rfl (shiftRightArith_eq_floor _ (shiftOfReg _))⟩⟩

/-- Settles O4: the relation that decides is the comparison of the operands' signed or unsigned integers. -/
theorem setLessThanWritesOneOrZero : Obligations.SetLessThanWritesOneOrZero :=
  fun _ _ _ _ =>
    ⟨⟨decode_wordR 0b0000000 0b010 rfl rfl, exec_wroteReg rfl (setWord_relLt _ _)⟩,
      ⟨decode_wordR 0b0000000 0b011 rfl rfl, exec_wroteReg rfl (setWord_relLtu _ _)⟩⟩

end Sys2Proof.Machine
end

section
/-! PROOFS. Register-immediate ALU and LI (41_alu_immediate.md): the words of formats I, SH and U, and the sign-extended
immediate by integers and by bits. The frame of a register result and the values of the shared operations are those of the
register-register family. -/

namespace Sys2Proof.Machine

open Sys2Proof.Claims

/-! ## The words of formats I, SH and U -/

/-- R78: the encoder's fields lie where the spec's sum puts them. -/
theorem wordI_eq_encodeI (funct3 : BitVec 3) (opcode : BitVec 7) (rd rs1 : Reg) (imm : BitVec 11) :
    wordI funct3.toNat opcode.toNat rd rs1 imm = encodeI funct3 opcode rd rs1 imm := by
  rw [wordI, ← encodeI_toNat, BitVec.ofNat_toNat, BitVec.setWidth_eq]

/-- R79. -/
theorem wordSh_eq_encodeSh (top : BitVec 8) (funct3 : BitVec 3) (rd rs1 : Reg) (shamt : BitVec 4) :
    wordSh top.toNat funct3.toNat rd rs1 shamt = encodeSh top funct3 rd rs1 shamt := by
  rw [wordSh, ← encodeSh_toNat, BitVec.ofNat_toNat, BitVec.setWidth_eq]

/-- R82. -/
theorem wordU_eq_encodeU (opcode : BitVec 7) (rd : Reg) (imm : BitVec 16) :
    wordU opcode.toNat rd imm = encodeU opcode rd imm := by
  rw [wordU, ← encodeU_toNat, BitVec.ofNat_toNat, BitVec.setWidth_eq]

section
variable {i : Instr} (hwf : i.wf = true) {rd rs1 : Reg}
include hwf

/-- The word of the encoder's own codes decodes to the instruction, by the round trip. -/
theorem decode_wordI (funct3 : BitVec 3) (opcode : BitVec 7) {imm : BitVec 11}
    (hi : encode i = encodeI funct3 opcode rd rs1 imm) : decode (wordI funct3.toNat opcode.toNat rd rs1 imm) = some i := by
  rw [wordI_eq_encodeI, ← hi, decodeOfEncodeIsIdentity i hwf]

theorem decode_wordSh (top : BitVec 8) (funct3 : BitVec 3) {shamt : BitVec 4}
    (hi : encode i = encodeSh top funct3 rd rs1 shamt) : decode (wordSh top.toNat funct3.toNat rd rs1 shamt) = some i := by
  rw [wordSh_eq_encodeSh, ← hi, decodeOfEncodeIsIdentity i hwf]

theorem decode_wordU (opcode : BitVec 7) {imm : BitVec 16} (hi : encode i = encodeU opcode rd imm) :
    decode (wordU opcode.toNat rd imm) = some i := by
  rw [wordU_eq_encodeU, ← hi, decodeOfEncodeIsIdentity i hwf]

end

/-! ## The sign-extended immediate (R104, R105 to R108, R112, R113) -/

/-- R105: the sum is the one an effective address takes, modulo 2^16. -/
theorem add_sext_eq_ofInt (a : Word) (imm : BitVec 11) : a + sext imm = BitVec.ofInt 16 ((uint a : Int) + imm.toInt) :=
  effectiveAddress_eq_address a imm

/-- R106 to R108: bits 15 to 10 of the operand are bit 10 of the immediate. -/
theorem getLsbD_sext_imm (imm : BitVec 11) {i : Nat} (hi : i < 16) : (sext imm).getLsbD i = imm.getLsbD (min i 10) := by
  rw [sext, BitVec.getLsbD_signExtend, decide_eq_true hi, Bool.true_and, BitVec.msb_eq_getLsbD_last]
  split
  · rw [Nat.min_eq_left (by omega)]
  · rw [Nat.min_eq_right (by omega)]

/-- R113: read as unsigned, the operand is the signed immediate modulo 2^16. -/
theorem uint_sext_imm (imm : BitVec 11) : (uint (sext imm) : Int) = imm.toInt % 65536 := by
  rw [sext, BitVec.signExtend, uint, BitVec.toNat_ofInt]
  exact Int.toNat_of_nonneg (Int.emod_nonneg _ (by decide))

theorem setTo_congr {p q : Prop} [Decidable p] [Decidable q] (h : p ↔ q) : setTo p = setTo q := if_congr h rfl rfl

/-- R112. -/
theorem setWord_relLt_sext (a : Word) (imm : BitVec 11) : setWord (relLt a (sext imm)) = setTo (sint a < imm.toInt) := by
  rw [setWord_relLt, sext, sint, sint, BitVec.toInt_signExtend_of_le (by decide)]

/-- R113. -/
theorem setWord_relLtu_sext (a : Word) (imm : BitVec 11) :
    setWord (relLtu a (sext imm)) = setTo ((uint a : Int) < imm.toInt % 65536) := by
  rw [setWord_relLtu]
  exact setTo_congr (by rw [← uint_sext_imm, Nat.cast_lt])

/-! ## The statements (O5 to O8) -/

/-- Settles O5: the sum by integers; the logical operations act on each bit alone, and bit i of the operand is bit min(i, 10)
of the immediate. -/
theorem immediateAluSignExtends : Obligations.ImmediateAluSignExtends :=
  fun s rd rs1 imm =>
    ⟨⟨decode_wordI rfl 0b000 0b0010011 rfl, exec_wroteReg rfl (add_sext_eq_ofInt _ _)⟩,
      ⟨decode_wordI rfl 0b100 0b0010011 rfl, _, _, opRegImm_eq _ rd rs1 imm s, wroteReg_writeReg_writePc s rd _ _,
        fun _ hi => by rw [BitVec.getLsbD_xor, getLsbD_sext_imm imm hi]⟩,
      ⟨decode_wordI rfl 0b110 0b0010011 rfl, _, _, opRegImm_eq _ rd rs1 imm s, wroteReg_writeReg_writePc s rd _ _,
        fun _ hi => by rw [BitVec.getLsbD_or, getLsbD_sext_imm imm hi]⟩,
      ⟨decode_wordI rfl 0b111 0b0010011 rfl, _, _, opRegImm_eq _ rd rs1 imm s, wroteReg_writeReg_writePc s rd _ _,
        fun _ hi => by rw [BitVec.getLsbD_and, getLsbD_sext_imm imm hi]⟩⟩

/-- Settles O6: each shift by integers, at the amount R72 takes from the 4-bit field. -/
theorem immediateShiftsByShamt : Obligations.ImmediateShiftsByShamt :=
  fun _ _ _ shamt =>
    ⟨⟨decode_wordSh rfl 0b00000000 0b001 rfl, exec_wroteReg rfl (shiftLeft_eq_ofNat _ (shiftOfImm shamt))⟩,
      ⟨decode_wordSh rfl 0b00000000 0b101 rfl, exec_wroteReg rfl (shiftRight_eq_ofNat _ (shiftOfImm shamt))⟩,
      ⟨decode_wordSh rfl 0b01000000 0b101 rfl, exec_wroteReg rfl (shiftRightArith_eq_floor _ (shiftOfImm shamt))⟩⟩

/-- Settles O7: the relation that decides is the comparison with the extended immediate's signed or unsigned integer. -/
theorem setLessThanImmediateExtendsFirst : Obligations.SetLessThanImmediateExtendsFirst :=
  fun _ _ _ _ =>
    ⟨⟨decode_wordI rfl 0b010 0b0010011 rfl, exec_wroteReg rfl (setWord_relLt_sext _ _)⟩,
      ⟨decode_wordI rfl 0b011 0b0010011 rfl, exec_wroteReg rfl (setWord_relLtu_sext _ _)⟩⟩

/-- Settles O8: the round trip through format U gives LI its 16 bits, and it writes them as they are. -/
theorem liWritesRawImmediate : Obligations.LiWritesRawImmediate :=
  fun _ _ _ => ⟨decode_wordU rfl 0b0110111 rfl, exec_wroteReg rfl rfl⟩

end Sys2Proof.Machine
end

section
/-! PROOFS. Multiply, divide and remainder (42_muldiv.md): the products, quotients and remainders of R117 to R124 by integers,
and the laws of R125. The words of format R and the frame of a register result are those of the register-register family. -/

namespace Sys2Proof.Machine

open Sys2Proof.Claims

/-! ## Products (R117 to R120) -/

/-- R116: the high half of a 32-bit representation rounds down, whatever the sign of the product. -/
theorem highHalf_eq_floor (p : Int) : highHalf p = BitVec.ofInt 16 (p / 65536) := by
  apply BitVec.eq_of_toNat_eq
  rw [highHalf, BitVec.extractLsb'_toNat, BitVec.toNat_ofInt, BitVec.toNat_ofInt, Nat.shiftRight_eq_div_pow]
  omega

/-- R117: the low half does not depend on the signedness of the operands. -/
theorem mulLow_eq_ofInt (a b : Word) : mulLow a b = BitVec.ofInt 16 (sint a * sint b) := by
  rw [mulLow, BitVec.ofNat_mul, BitVec.ofInt_mul, BitVec.ofNat_toNat, BitVec.ofNat_toNat, BitVec.setWidth_eq,
    BitVec.setWidth_eq, BitVec.ofInt_toInt, BitVec.ofInt_toInt]

/-- R120: of a product that is no negative number, the floor is that of the natural numbers. -/
theorem mulHighUU_eq_ofNat (a b : Word) : mulHighUU a b = BitVec.ofNat 16 (uint a * uint b / 65536) := by
  rw [mulHighUU, highHalf_eq_floor, ← BitVec.ofInt_natCast]
  norm_cast

/-! ## Quotients and remainders (R121 to R124)

The corner values are named once. But for the quotients at a zero divisor, each is what the integers give modulo 2^16. -/

theorem divSigned_zero (a : Word) : divSigned a 0 = 0xFFFF := rfl

theorem divUnsigned_zero (a : Word) : divUnsigned a 0 = 0xFFFF := rfl

theorem remSigned_zero (a : Word) : remSigned a 0 = a := rfl

theorem remUnsigned_zero (a : Word) : remUnsigned a 0 = a := rfl

theorem divSigned_overflowPair : divSigned 0x8000 0xFFFF = 0x8000 := rfl

theorem remSigned_overflowPair : remSigned 0x8000 0xFFFF = 0 := rfl

/-- R121: 0x8000 at the overflow pair is the quotient 2^15 modulo 2^16. -/
theorem divSigned_eq_ofInt {b : Word} (hb : b ≠ 0) (a : Word) :
    divSigned a b = BitVec.ofInt 16 ((sint a).tdiv (sint b)) := by
  rw [divSigned, if_neg hb]
  split
  case isTrue hpair => obtain ⟨rfl, rfl⟩ := hpair; decide
  case isFalse => rfl

/-- R123: the remainder of truncating division, which is the dividend at a zero divisor and 0 at the overflow pair. -/
theorem remSigned_eq_ofInt (a b : Word) : remSigned a b = BitVec.ofInt 16 ((sint a).tmod (sint b)) := by
  rw [remSigned, ← Int.tmod_def]
  split
  case isTrue hb => rw [hb, sint, sint, BitVec.ofNat_eq_ofNat, BitVec.toInt_zero, Int.tmod_zero, BitVec.ofInt_toInt]
  case isFalse =>
    split
    case isTrue hpair => obtain ⟨rfl, rfl⟩ := hpair; decide
    case isFalse => rfl

/-- The only quotient out of range is that of the overflow pair. -/
theorem sint_divSigned {a b : Word} (hb : b ≠ 0) (hpair : ¬(a = 0x8000 ∧ b = 0xFFFF)) :
    sint (divSigned a b) = (sint a).tdiv (sint b) := by
  rw [divSigned_eq_ofInt hb, ← BitVec.toInt_sdiv_of_ne_or_ne a b (Classical.not_and_iff_not_or_not.mp hpair),
    BitVec.ofInt_toInt]

/-- Every remainder is in range. -/
theorem sint_remSigned (a b : Word) : sint (remSigned a b) = (sint a).tmod (sint b) := by
  rw [remSigned_eq_ofInt, ← BitVec.toInt_srem, BitVec.ofInt_toInt]

/-- R122. -/
theorem uint_divUnsigned {b : Word} (hb : b ≠ 0) (a : Word) : uint (divUnsigned a b) = uint a / uint b := by
  rw [divUnsigned, if_neg hb, ← BitVec.udiv_def]
  exact BitVec.toNat_udiv

/-- R124, at a zero divisor too. -/
theorem uint_remUnsigned (a b : Word) : uint (remUnsigned a b) = uint a % uint b := by
  rw [remUnsigned, ← BitVec.umod_def]
  split
  case isTrue hb => rw [hb, ← BitVec.toNat_umod, BitVec.ofNat_eq_ofNat, BitVec.umod_zero]
  case isFalse => exact BitVec.toNat_umod

/-- R121, its three cases. -/
theorem divIs_divSigned (a b : Word) : DivIs a b (divSigned a b) :=
  ⟨fun hb => hb ▸ divSigned_zero a, fun ⟨ha, hb⟩ => by rw [ha, hb, divSigned_overflowPair],
    fun ⟨hb, hpair⟩ => sint_divSigned hb hpair⟩

/-- R123, its three cases. -/
theorem remIs_remSigned (a b : Word) : RemIs a b (remSigned a b) :=
  ⟨fun hb => hb ▸ remSigned_zero a, fun ⟨ha, hb⟩ => by rw [ha, hb, remSigned_overflowPair],
    fun _ => by rw [sint_remSigned, Int.tmod_def]⟩

/-! ## The laws of R125 -/

/-- A remainder of truncating division is zero or has the sign of the dividend. -/
theorem sint_remSigned_sign (a b : Word) :
    sint (remSigned a b) = 0 ∨ (sint (remSigned a b) < 0 ↔ sint a < 0) := by
  have hsign := Int.sign_tmod (sint a) (sint b)
  rw [← sint_remSigned] at hsign
  split at hsign
  case isTrue => exact .inl (Int.sign_eq_zero_iff_zero.mp hsign)
  case isFalse => exact .inr (by rw [← Int.sign_eq_neg_one_iff_neg, hsign, Int.sign_eq_neg_one_iff_neg])

theorem abs_sint_remSigned_lt {b : Word} (hb : b ≠ 0) (a : Word) : |sint (remSigned a b)| < |sint b| := by
  have hb' : sint b ≠ 0 := fun h => hb (BitVec.toInt_inj.mp h)
  rw [sint_remSigned, Int.abs_eq_natAbs, Int.abs_eq_natAbs, Int.natAbs_tmod, Nat.cast_lt]
  exact Nat.mod_lt _ (Int.natAbs_pos.mpr hb')

/-- The signed identity modulo 2^16, the corners among its cases: the integers' own identity under `BitVec.ofInt`. -/
theorem mul_divSigned_add_remSigned (a b : Word) : b * divSigned a b + remSigned a b = a := by
  by_cases hb : b = 0
  · rw [hb, remSigned_zero, zero_mul, zero_add]
  · calc b * divSigned a b + remSigned a b
        = BitVec.ofInt 16 (sint b * (sint a).tdiv (sint b) + (sint a).tmod (sint b)) := by
          rw [BitVec.ofInt_add, BitVec.ofInt_mul, ← divSigned_eq_ofInt hb, ← remSigned_eq_ofInt, BitVec.ofInt_toInt]
      _ = a := by rw [Int.mul_tdiv_add_tmod, BitVec.ofInt_toInt]

theorem uint_mul_divUnsigned_add_remUnsigned {b : Word} (hb : b ≠ 0) (a : Word) :
    uint b * uint (divUnsigned a b) + uint (remUnsigned a b) = uint a := by
  rw [uint_divUnsigned hb, uint_remUnsigned, Nat.div_add_mod]

theorem uint_remUnsigned_lt {b : Word} (hb : b ≠ 0) (a : Word) : uint (remUnsigned a b) < uint b := by
  rw [uint_remUnsigned]
  exact Nat.mod_lt _ (Nat.pos_of_ne_zero fun h => hb (BitVec.eq_of_toNat_eq h))

/-- The unsigned identity modulo 2^16: exact but at a zero divisor. -/
theorem mul_divUnsigned_add_remUnsigned (a b : Word) : b * divUnsigned a b + remUnsigned a b = a := by
  by_cases hb : b = 0
  · rw [hb, remUnsigned_zero, zero_mul, zero_add]
  · apply BitVec.eq_of_toNat_eq
    rw [BitVec.toNat_add, BitVec.toNat_mul, Nat.mod_add_mod, uint_mul_divUnsigned_add_remUnsigned hb a,
      Nat.mod_eq_of_lt a.isLt]

/-! ## The statements (O9 to O12) -/

/-- Settles O9: the low half has both forms, and each high half is the floor of its exact product. -/
theorem multiplyHalvesOfExactProduct : Obligations.MultiplyHalvesOfExactProduct :=
  fun s rd _ _ =>
    ⟨⟨decode_wordR 0b0000001 0b000 rfl rfl, _, rfl, mulLow_eq_ofInt _ _ ▸ wroteReg_writeReg_writePc s rd _ _,
        wroteReg_writeReg_writePc s rd _ _⟩,
      ⟨decode_wordR 0b0000001 0b001 rfl rfl, exec_wroteReg rfl (highHalf_eq_floor _)⟩,
      ⟨decode_wordR 0b0000001 0b010 rfl rfl, exec_wroteReg rfl (highHalf_eq_floor _)⟩,
      ⟨decode_wordR 0b0000001 0b011 rfl rfl, exec_wroteReg rfl (mulHighUU_eq_ofNat _ _)⟩⟩

/-- Settles O10: both complete for every divisor, and the quotient read back is that of the integers. -/
theorem divideTruncatesAndNeverTraps : Obligations.DivideTruncatesAndNeverTraps :=
  fun s rd rs1 rs2 =>
    ⟨⟨decode_wordR 0b0000001 0b100 rfl rfl, _, _, opRegReg_eq _ rd rs1 rs2 s, wroteReg_writeReg_writePc s rd _ _,
        divIs_divSigned _ _⟩,
      ⟨decode_wordR 0b0000001 0b101 rfl rfl, _, _, opRegReg_eq _ rd rs1 rs2 s, wroteReg_writeReg_writePc s rd _ _,
        fun hb => hb ▸ divUnsigned_zero _, fun hb => uint_divUnsigned hb _⟩⟩

/-- Settles O11: the remainder of truncating division takes its sign from the dividend. -/
theorem remainderOfDividendSign : Obligations.RemainderOfDividendSign :=
  fun s rd rs1 rs2 =>
    ⟨⟨decode_wordR 0b0000001 0b110 rfl rfl, _, _, opRegReg_eq _ rd rs1 rs2 s, wroteReg_writeReg_writePc s rd _ _,
        remIs_remSigned _ _, fun _ => sint_remSigned_sign _ _⟩,
      ⟨decode_wordR 0b0000001 0b111 rfl rfl, _, _, opRegReg_eq _ rd rs1 rs2 s, wroteReg_writeReg_writePc s rd _ _,
        fun hb => hb ▸ remUnsigned_zero _, fun _ => uint_remUnsigned _ _⟩⟩

/-- Settles O12: the laws of integer division, exact where the quotient is in range and modulo 2^16 everywhere. -/
theorem quotientAndRemainderRecombine : Obligations.QuotientAndRemainderRecombine := by
  refine fun a b => ⟨fun hb hpair => ⟨?_, abs_sint_remSigned_lt hb a, sint_remSigned_sign a b⟩,
    fun hb => ⟨(uint_mul_divUnsigned_add_remUnsigned hb a).symm, uint_remUnsigned_lt hb a⟩,
    (mul_divSigned_add_remSigned a b).symm, (mul_divUnsigned_add_remUnsigned a b).symm, ?_⟩
  · rw [sint_divSigned hb hpair, sint_remSigned, Int.mul_tdiv_add_tmod]
  · rintro rfl
    exact ⟨divSigned_zero a, divUnsigned_zero a, remSigned_zero a, remUnsigned_zero a⟩

end Sys2Proof.Machine
end

section
/-! PROOFS. Loads and stores (43_load_store.md): what LB, LBU, LW, SB and SW answer in terms of the memory ports, and the
round trip through memory. The words of format I and the frame of a register result are those of the ALU families. -/

namespace Sys2Proof.Machine

open Sys2Proof.Claims

/-! ## The words of format S -/

/-- R80: the encoder's fields lie where the spec's sum puts them. -/
theorem wordS_eq_encodeS (funct3 : BitVec 3) (rs base : Reg) (imm : BitVec 11) :
    wordS funct3.toNat rs base imm = encodeS funct3 rs base imm := by
  rw [wordS, ← encodeS_toNat, BitVec.ofNat_toNat, BitVec.setWidth_eq]

/-- The word of the encoder's own code decodes to the store, by the round trip. -/
theorem decode_wordS (funct3 : BitVec 3) {rs base : Reg} {imm : BitVec 11} {i : Instr} (hwf : i.wf = true)
    (hi : encode i = encodeS funct3 rs base imm) : decode (wordS funct3.toNat rs base imm) = some i := by
  rw [wordS_eq_encodeS, ← hi, decodeOfEncodeIsIdentity i hwf]

/-! ## Loads (R129 to R131) -/

/-- R129: sign extension goes by the signed reading. -/
theorem sext_eq_ofInt_toInt (b : Byte) : sext b = BitVec.ofInt 16 b.toInt := rfl

/-- R130: zero extension goes by the unsigned reading. -/
theorem zext_eq_ofNat_toNat (b : Byte) : zext b = BitVec.ofNat 16 b.toNat := (BitVec.ofNat_toNat 16 b).symm

/-- R131: LW completes with what the halfword port reads. -/
theorem lw_wroteReg {s : State} {rd rs1 : Reg} {imm : BitVec 11} {v : Word}
    (h : s.readHalf (effectiveAddress (s.readReg rs1) imm) = .ok v) :
    ∃ t, exec (.lw rd rs1 imm) s = .next t ∧ WroteReg s t rd v (s.pc + 4) := by
  have hexec : exec (.lw rd rs1 imm) s = .next ((s.writeReg rd v).writePc (s.pc + 4)) := by
    rw [exec, execLw, loadHalf, h]; rfl
  exact exec_wroteReg hexec rfl

/-- R46: LW stops where the halfword port does, whatever its destination. -/
theorem lw_of_halfStop {s : State} (rd : Reg) {rs1 : Reg} {imm : BitVec 11} {f : Fault}
    (h : s.halfStop (effectiveAddress (s.readReg rs1) imm) = some f) : exec (.lw rd rs1 imm) s = .fault f :=
  (loadHalf_stop_bothDo rd rs1 imm (SameInputs.refl _ s) h).left

/-- Settles O13: one byte read at the address by integers, extended by its signed or its unsigned reading. -/
theorem byteLoadsExtend : Obligations.ByteLoadsExtend := by
  intro s rd rs1 imm
  rw [← effectiveAddress_eq_address]
  exact ⟨⟨decode_wordI rfl 0b000 0b0000011 rfl, exec_wroteReg rfl (sext_eq_ofInt_toInt _)⟩,
    ⟨decode_wordI rfl 0b100 0b0000011 rfl, exec_wroteReg rfl (zext_eq_ofNat_toNat _)⟩⟩

/-- Settles O14: LW does what the halfword port says, at the address by integers. -/
theorem loadWordFollowsOrderAndAlignment : Obligations.LoadWordFollowsOrderAndAlignment := by
  intro s rd rs1 imm
  rw [← effectiveAddress_eq_address]
  exact ⟨decode_wordI rfl 0b010 0b0000011 rfl, fun h => lw_wroteReg (readHalf_eq_halfValue h),
    fun hodd h => lw_of_halfStop rd (halfStop_of_stuck hodd h), fun hodd h => lw_of_halfStop rd (halfStop_of_fault hodd h)⟩

/-! ## Stores (R132, R133) -/

/-- R46: SW stops where the halfword port does. -/
theorem sw_of_halfStop {s : State} (rs : Reg) {base : Reg} {imm : BitVec 11} {f : Fault}
    (h : s.halfStop (effectiveAddress (s.readReg base) imm) = some f) : exec (.sw rs base imm) s = .fault f :=
  (storeHalf_stop_bothDo rs base imm (SameInputs.refl _ s) h).left

/-- R132: a byte store and the move to the next word leave the registers and the platform alone. -/
theorem storeDone_writeByte (s : State) (a : Word) (v : Byte) : StoreDone s ((s.writeByte a v).advance 4) :=
  ⟨fun _ => rfl, rfl, rfl, rfl⟩

/-- R133: so do a halfword store and that move. -/
theorem storeDone_writeHalf {s u : State} {a v : Word} (hw : s.writeHalf a v = .ok u) : StoreDone s (u.advance 4) := by
  cases eq_of_writeHalf_ok hw
  exact ⟨fun _ => rfl, rfl, rfl, rfl⟩

theorem halfOk_of_writeHalf_ok {s u : State} {a v : Word} (hw : s.writeHalf a v = .ok u) : s.HalfOk a := by
  rw [← State.halfStop_eq_none_iff]
  cases hs : s.halfStop a with
  | none => rfl
  | some f => rw [State.writeHalf_stop s a v f hs] at hw; cases hw

@[simp] theorem halfLiesAt_advance (t : State) (d a v : Word) : HalfLiesAt (t.advance d) a v ↔ HalfLiesAt t a v := Iff.rfl

/-- Settles O15: SB is one byte write and the move to the next word. -/
theorem storeByteWritesOneByte : Obligations.StoreByteWritesOneByte := by
  intro s rs base imm hm
  refine ⟨decode_wordS 0b000 rfl rfl, effectiveAddress_eq_address _ imm, _, rfl, storeDone_writeByte s _ _, ?_, ?_⟩
  · rw [State.readByte_advance, readByte_writeByte_self hm, toNat_lowByte, uint]
  · rintro _ rfl a ha
    exact readByte_writeByte_of_ne s _ ha

/-- Settles O16: SW is one write of the halfword port and the move to the next word, or it stops where the port does. -/
theorem storeWordFollowsOrderAndAlignment : Obligations.StoreWordFollowsOrderAndAlignment := by
  intro s rs base imm hm
  refine ⟨decode_wordS 0b010 rfl rfl, effectiveAddress_eq_address _ imm, fun h => ?_,
    fun hodd h => sw_of_halfStop rs (halfStop_of_stuck hodd h), fun hodd h => sw_of_halfStop rs (halfStop_of_fault hodd h)⟩
  have hw := State.writeHalf_ok s _ (s.readReg rs) h
  refine ⟨_, storeHalf_ok rs base imm s h, storeDone_writeHalf hw,
    (halfLiesAt_advance _ _ _ _).2 (halfLiesAt_writeHalf hw hm), ?_⟩
  rintro _ rfl a ha ha'
  exact readByte_writeHalf_of_ne hw ha ha'

/-! ## A store, then a load (O17), and registers that overlap (O18) -/

/-- Settles O17: after SW the bytes of the value lie at an address where the same port now reads, in the same order. -/
theorem storeThenLoadReturnsValue : Obligations.StoreThenLoadReturnsValue := by
  intro s t rs base rd imm hm hexec
  obtain ⟨u, hw, rfl⟩ := storeHalf_next rs base imm s t hexec
  obtain ⟨hregs, -, -, hcfg⟩ := storeDone_writeHalf hw
  have hok : (u.advance 4).HalfOk (effectiveAddress (s.readReg base) imm) := by
    rw [State.HalfOk, hcfg]
    exact halfOk_of_writeHalf_ok hw
  have hread := readHalf_of_halfLiesAt hok ((halfLiesAt_advance u _ _ _).2 (halfLiesAt_writeHalf hw hm))
  rw [← hregs base] at hread
  exact lw_wroteReg hread

/-- R16: a register result in a hard-wired x0 leaves every register as it was. -/
theorem went_of_wroteReg_zero {s t : State} {v p : Word} (h : WroteReg s t 0 v p) (hp : s.cfg.x0Policy = .hardwiredZero) :
    Went s t p where
  registers r := by
    by_cases hr : r = 0
    · rw [hr, h.zero hp, readReg_zero_of_hardwiredZero hp]
    · exact h.others r hr
  pc       := h.pc
  memory   := h.memory
  image    := h.image
  storedTo := h.storedTo
  cfg      := h.cfg

/-- Settles O18: O13 to O16 hold at equal registers too, with every operand read in the state before. -/
theorem loadStoreOverlapReadsFirst : Obligations.LoadStoreOverlapReadsFirst := by
  intro s r imm hm
  obtain ⟨⟨-, hlb⟩, -, hlbu⟩ := byteLoadsExtend s r r imm
  obtain ⟨-, hlw, -⟩ := loadWordFollowsOrderAndAlignment s r r imm
  obtain ⟨-, hlw0, -⟩ := loadWordFollowsOrderAndAlignment s 0 r imm
  obtain ⟨-, -, tb, hsb, -, hbyte, -⟩ := storeByteWritesOneByte s r r imm hm
  obtain ⟨-, -, hsw, -⟩ := storeWordFollowsOrderAndAlignment s r r imm hm
  simp only [effectiveAddress_eq_address] at hbyte hsw
  refine ⟨hlb, hlbu, hlw, ⟨tb, hsb, hbyte⟩, fun h => ?_, fun hp h => ?_, fun _ hstop => ?_⟩
  · obtain ⟨t, hexec, -, hlies, -⟩ := hsw h
    exact ⟨t, hexec, hlies⟩
  · obtain ⟨t, hexec, hwrote⟩ := hlw0 h
    exact ⟨t, hexec, went_of_wroteReg_zero hwrote hp⟩
  · rw [← State.halfStop_eq_none_iff, ← effectiveAddress_eq_address] at hstop
    obtain ⟨f, hf⟩ := Option.ne_none_iff_exists'.1 hstop
    exact ⟨f, lw_of_halfStop 0 hf⟩

end Sys2Proof.Machine
end

section
/-! PROOFS. Control transfer (44_control_transfer.md): where a branch and a jump go by integers, and the relations that decide
a branch. The words of formats I and U and the frame of a register result are those of the ALU families. -/

namespace Sys2Proof.Machine

open Sys2Proof.Claims

/-! ## The words of format B -/

/-- R81: the encoder's fields lie where the spec's sum puts them. -/
theorem wordB_eq_encodeB (funct3 : BitVec 3) (rs1 rs2 : Reg) (off : BitVec 13) :
    wordB funct3.toNat rs1 rs2 off = encodeB funct3 rs1 rs2 off := by
  rw [wordB, ← encodeB_toNat, BitVec.ofNat_toNat, BitVec.setWidth_eq]

/-- The word of the encoder's own code decodes to the branch, by the round trip; R74 asks for an even offset. -/
theorem decode_wordB (funct3 : BitVec 3) {rs1 rs2 : Reg} {off : BitVec 13} {i : Instr} (hwf : i.wf = true)
    (hi : encode i = encodeB funct3 rs1 rs2 off) : decode (wordB funct3.toNat rs1 rs2 off) = some i := by
  rw [wordB_eq_encodeB, ← hi, decodeOfEncodeIsIdentity i hwf]

/-! ## Targets and the link by integers (R135, R142, R143) -/

/-- R135: the signed offset from the branch's own address. -/
theorem branchTarget_eq_ofInt (pc : Word) (off : BitVec 13) :
    branchTarget pc off = BitVec.ofInt 16 ((pc.toNat : Int) + off.toInt) := by
  rw [branchTarget, BitVec.ofInt_add, BitVec.ofInt_natCast, BitVec.ofNat_toNat, BitVec.setWidth_eq]
  rfl

/-- R142: the raw offset from the jump's own address. -/
theorem jalTarget_eq_ofNat (pc : Word) (imm : BitVec 16) : jalTarget pc imm = BitVec.ofNat 16 (pc.toNat + imm.toNat) :=
  add_eq_ofNat pc imm

/-- R143: the target is the sum an effective address takes, with no bit cleared (D26). -/
theorem jalrTarget_eq_address (base : Word) (imm : BitVec 11) : jalrTarget base imm = address base imm :=
  effectiveAddress_eq_address base imm

/-- R22: the address of the next word wraps modulo 2^16. -/
theorem pc_add_four_eq_ofNat (pc : Word) : pc + 4 = BitVec.ofNat 16 (pc.toNat + 4) := add_eq_ofNat pc 4

/-! ## The relations that decide a branch (R136 to R141) -/

/-- R136. -/
theorem relEq_iff (a b : Word) : relEq a b = true ↔ a = b := beq_iff_eq

/-- R137. -/
theorem relNe_iff (a b : Word) : relNe a b = true ↔ a ≠ b := bne_iff_ne

/-- R138. -/
theorem relLt_iff (a b : Word) : relLt a b = true ↔ sint a < sint b := decide_eq_true_iff

/-- R139. -/
theorem relGe_iff (a b : Word) : relGe a b = true ↔ sint a ≥ sint b := decide_eq_true_iff

/-- R140. -/
theorem relLtu_iff (a b : Word) : relLtu a b = true ↔ uint a < uint b := decide_eq_true_iff

/-- R141. -/
theorem relGeu_iff (a b : Word) : relGeu a b = true ↔ uint a ≥ uint b := decide_eq_true_iff

/-! ## What a branch and a jump do -/

/-- R135 to R141: an instruction that branches on a relation moves the PC where the relation, in any form of it, says. -/
theorem exec_branch_went {i : Instr} {rel : Word → Word → Bool} {rs1 rs2 : Reg} {off : BitVec 13} {s : State} {taken : Prop}
    [Decidable taken] (hexec : exec i s = branchOn rel rs1 rs2 off s)
    (htaken : rel (s.readReg rs1) (s.readReg rs2) = true ↔ taken) :
    ∃ t, exec i s = .next t ∧ Went s t (branchGoes s taken off) := by
  have hgoes : (if rel (s.readReg rs1) (s.readReg rs2) then branchTarget s.pc off else s.pc + 4) =
      branchGoes s taken off :=
    if_congr htaken (branchTarget_eq_ofInt s.pc off) (pc_add_four_eq_ofNat s.pc)
  exact ⟨_, hexec.trans (branchOn_eq rel rs1 rs2 off s), hgoes ▸ went_writePc s _⟩

/-- R142 and R143: an instruction that links and jumps writes the address of the next word to `rd`, and goes to its target in
any form of it. -/
theorem exec_linkAndJump_wroteReg {i : Instr} {rd : Reg} {target p : Word} {s : State}
    (hexec : exec i s = linkAndJump rd target s) (htarget : target = p) :
    ∃ t, exec i s = .next t ∧ WroteReg s t rd (BitVec.ofNat 16 (s.pc.toNat + 4)) p := by
  subst htarget
  exact exec_wroteReg (hexec.trans (linkAndJump_eq rd target s)) (pc_add_four_eq_ofNat s.pc)

/-! ## The statements (O20 to O24) -/

/-- Settles O20: the relations are equality and its negation. -/
theorem beqAndBneBranchOnEquality : Obligations.BeqAndBneBranchOnEquality :=
  fun _ _ _ _ heven =>
    ⟨⟨decode_wordB 0b000 heven rfl, exec_branch_went rfl (relEq_iff _ _)⟩,
      ⟨decode_wordB 0b001 heven rfl, exec_branch_went rfl (relNe_iff _ _)⟩⟩

/-- Settles O21: the relations compare the signed integers. -/
theorem bltAndBgeCompareSigned : Obligations.BltAndBgeCompareSigned :=
  fun _ _ _ _ heven =>
    ⟨⟨decode_wordB 0b100 heven rfl, exec_branch_went rfl (relLt_iff _ _)⟩,
      ⟨decode_wordB 0b101 heven rfl, exec_branch_went rfl (relGe_iff _ _)⟩⟩

/-- Settles O22: the relations compare the unsigned integers. -/
theorem bltuAndBgeuCompareUnsigned : Obligations.BltuAndBgeuCompareUnsigned :=
  fun _ _ _ _ heven =>
    ⟨⟨decode_wordB 0b110 heven rfl, exec_branch_went rfl (relLtu_iff _ _)⟩,
      ⟨decode_wordB 0b111 heven rfl, exec_branch_went rfl (relGeu_iff _ _)⟩⟩

/-- Settles O23: the target is the sum of the PC and the raw offset. -/
theorem jalLinksAndJumpsRelative : Obligations.JalLinksAndJumpsRelative :=
  fun _ _ _ => ⟨decode_wordU rfl 0b1101111 rfl, exec_linkAndJump_wroteReg rfl (jalTarget_eq_ofNat _ _)⟩

/-- Settles O24: the target is made from the register before the link is written, so `rd` may be `rs1`. -/
theorem jalrJumpsToOldRegister : Obligations.JalrJumpsToOldRegister :=
  fun _ _ _ _ => ⟨decode_wordI rfl 0b000 0b1100111 rfl, exec_linkAndJump_wroteReg rfl (jalrTarget_eq_address _ _)⟩

end Sys2Proof.Machine
end

section
/-! PROOFS. The run loop (70_reset_and_hazards.md section 1, R161): one equation per way a turn can go, and the induction on the
turns. The turn that faults is `runLoop_of_step_fault`, above. -/

namespace Sys2Proof.Machine

/-- R161: at STOP_PC no turn is taken, however many are left. -/
theorem runLoop_of_pc_eq {stopPc : Word} {s : State} (n : Nat) (hpc : s.pc = stopPc) : runLoop stopPc n s = .atStop s := by
  cases n with
  | zero => rw [runLoop, if_pos hpc]
  | succ n => rw [runLoop, if_pos hpc]

/-- Away from STOP_PC a bound of no turns is used up at once. -/
theorem runLoop_zero_of_pc_ne {stopPc : Word} {s : State} (hpc : s.pc ≠ stopPc) : runLoop stopPc 0 s = .outOfTurns s := by
  rw [runLoop, if_neg hpc]

theorem runLoop_of_step_next {stopPc : Word} {s t : State} (n : Nat) (hpc : s.pc ≠ stopPc) (h : step s = .next t) :
    runLoop stopPc (n + 1) s = runLoop stopPc n t := by
  rw [runLoop, if_neg hpc, h]

theorem runLoop_of_step_refused {stopPc : Word} {s : State} {r : Refusal} (n : Nat) (hpc : s.pc ≠ stopPc)
    (h : step s = .refused r) : runLoop stopPc (n + 1) s = .refused r s := by
  rw [runLoop, if_neg hpc, h]

/-- A run ends at the stop only where it finds STOP_PC: every other turn goes on or ends another way. -/
theorem pc_eq_of_runLoop_atStop {stopPc : Word} {n : Nat} {s t : State} (h : runLoop stopPc n s = .atStop t) :
    t.pc = stopPc := by
  induction n generalizing s with
  | zero =>
    by_cases hpc : s.pc = stopPc
    · rw [runLoop_of_pc_eq 0 hpc] at h
      exact RunEnd.atStop.inj h ▸ hpc
    · rw [runLoop_zero_of_pc_ne hpc] at h
      cases h
  | succ n ih =>
    by_cases hpc : s.pc = stopPc
    · rw [runLoop_of_pc_eq (n + 1) hpc] at h
      exact RunEnd.atStop.inj h ▸ hpc
    · cases hstep : step s with
      | next u => exact ih (runLoop_of_step_next n hpc hstep ▸ h)
      | fault f =>
        rw [runLoop_of_step_fault n hpc hstep] at h
        cases h
      | refused r =>
        rw [runLoop_of_step_refused n hpc hstep] at h
        cases h

/-- Settles O46: the three ways a turn goes, and the induction on the turns for where a run ends. -/
theorem runLoopStopsBeforeFetch : Obligations.RunLoopStopsBeforeFetch :=
  fun _ n _ =>
    ⟨runLoop_of_pc_eq n, fun hpc _ => runLoop_of_step_next n hpc, fun hpc _ => runLoop_of_step_fault n hpc,
      fun _ => pc_eq_of_runLoop_atStop⟩

end Sys2Proof.Machine
end

section
/-! PROOFS. Sample words (95_test_vectors.md section L2, 30_encoding.md sections 5 and 6): start-up accepts RE; a legal word is the
word of its instruction, so the round trip decodes it; an illegal word disagrees with every row of RE on some fixed bit. -/

namespace Sys2Proof

/-- R159: a table that fails no check is the table that start-up hands on. -/
theorem startUp_of_firstError_eq_none {e : Enc} (h : e.firstError = none) : e.startUp = .ok ⟨e, h⟩ := by
  unfold Enc.startUp
  split
  next => rfl
  next herr => cases h.symm.trans herr

/-- The word an instruction encodes to decodes to it, by the round trip. -/
theorem decode_of_encode_eq {i : Instr} {w : IWord} (hwf : i.wf = true) (h : encode i = w) : decode w = some i :=
  h ▸ decodeOfEncodeIsIdentity i hwf

/-- R89: a word is illegal under RE exactly when it matches no row. -/
theorem decode_eq_none_iff (w : IWord) : decode w = none ↔ ∀ row ∈ re, Matches w row.pattern = false := by
  simp only [decode, decodeWith, Option.map_eq_none_iff, List.find?_eq_none, Bool.not_eq_true]

/-- Settles O30: a legal word is what R77 to R82 encode its instruction to, and an illegal word (opcode 0, ADDI with `w[30]` set,
SW with `w[25]` set, SLLI with `w[24]` set) matches no row. -/
theorem sampleWordsDecode : Obligations.SampleWordsDecode := by
  refine ⟨⟨reChecked, startUp_of_firstError_eq_none re_checked, rfl⟩, ?add, ?addi, ?sb, ?beq, ?li, ?srai, ?mulhsu, ?jalr,
    ?opcodeZero, ?addiBit30, ?swBit25, ?slliBit24⟩
  case add | addi | sb | beq | li | srai | mulhsu | jalr => exact decode_of_encode_eq rfl rfl
  case opcodeZero | addiBit30 | swBit25 | slliBit24 => exact (decode_eq_none_iff _).2 (by decide)

end Sys2Proof
end
